-- ==== Sys2Proof/Word.lean ====
section
/-! DEFINITION. The word types of the MMEE: bytes of the buffers (00_scope.md R9), 16-bit length registers
(10_state.md R33), 32-bit port and command words (00_scope.md R8) and the 11-bit word address of the host port
(10_state.md R50: `addr` is byte address bits 12:2). -/

namespace Sys2Proof

/-- One byte of a buffer (00_scope.md R9). -/
abbrev Byte := BitVec 8

/-- A length register or the immediate of a command word (10_state.md R33, 30_encoding.md R93). -/
abbrev Half := BitVec 16

/-- A port word, a command word, a SHA-256 word (00_scope.md R8, 30_encoding.md R90, 42_hash_mgf1.md R160). -/
abbrev Word := BitVec 32

/-- A 4-bit buffer selector of a command word (30_encoding.md R91, R94). -/
abbrev Selector := BitVec 4

/-- The word address of a host transaction. The port has no byte address: the two low address bits are not
wired, so a misaligned or narrower access cannot be written down (20_memory.md R65, 92_eei_decisions.md D29). -/
abbrev WordAddr := BitVec 11

end Sys2Proof
end

