-- ==== Sys2Proof/Config.lean ====
section
/-! DEFINITION. What an implementation of the MMEE fixes: the two OPEN parameters KMAX and LMAX (00_scope.md R6,
92_eei_decisions.md D6) as a record every state carries, and the constants the spec fixes. -/

namespace Sys2Proof

/-- The two open parameters (00_scope.md R6). They are arguments of the model: a state carries them, no step
changes them, and a statement about all states is a statement about every capacity. -/
structure Config where
  /-- Size in bytes of each of NBUF, EBUF, ABUF, BBUF, RBUF, MBUF. -/
  kmax : Nat
  /-- Size in bytes of LBUF. -/
  lmax : Nat
  deriving DecidableEq, Repr

namespace Config

/-- The constraints of 00_scope.md R6: multiples of 4, 68 ≤ KMAX ≤ 1024, 4 ≤ LMAX ≤ 1024. -/
def wf (c : Config) : Bool :=
  c.kmax % 4 == 0 && decide (68 ≤ c.kmax) && decide (c.kmax ≤ 1024) &&
    (c.lmax % 4 == 0 && decide (4 ≤ c.lmax) && decide (c.lmax ≤ 1024))

/-- The suggested values of 92_eei_decisions.md D6, a 2048-bit key. -/
def suggested : Config := { kmax := 256, lmax := 256 }

/-- The digest size h of the fixed hash (00_scope.md R6). -/
def hLen : Nat := 32

/-- The Montgomery word width W in bits (00_scope.md R6). -/
def wordBits : Nat := 32

/-- The value of the ID register, ASCII "MME1" (00_scope.md R6, 10_state.md R23). -/
def mmeeId : Word := 0x4D4D4531#32

/-- A free value, not a parameter of the block: the verdict of the Miller-Rabin harness for `n` where its run on the
block gives none (45_host_procedures.md R201, R202; notes/assumptions/20.md). -/
opaque unstatedVerdict : Nat → Bool

end Config
end Sys2Proof
end

