-- ==== Sys2Proof/Syntax.lean ====
section
/-! DEFINITION. The commands of the MMEE as syntax: one constructor per row of spec/opcode_table.json
(30_encoding.md R95), with the fields its format uses (R92). -/

namespace Sys2Proof

/-- The nine commands. A selector field holds any 4-bit value; `WellFormed` says which the command admits. -/
inductive Instr where
  /-- 0x00, format Z (40_command_execution.md R115). -/
  | nop
  /-- 0x01, format Z (41_montgomery.md R133). -/
  | minit
  /-- 0x02, format S2 (41_montgomery.md R134). -/
  | montmul (sa sb : Selector)
  /-- 0x03, format S2 (41_montgomery.md R135). -/
  | modmul (sa sb : Selector)
  /-- 0x04, format S1 (41_montgomery.md R136). -/
  | modexp (sa : Selector)
  /-- 0x10, format S1 (42_hash_mgf1.md R164). -/
  | hash (sa : Selector)
  /-- 0x11, format I (42_hash_mgf1.md R167). -/
  | mgf1 (len : Half)
  /-- 0x20, format Z (43_oaep.md R182). -/
  | oaepenc
  /-- 0x21, format S1 (43_oaep.md R184). -/
  | oaepdec (sa : Selector)
  deriving DecidableEq, Repr

namespace Instr

/-- The pseudo-command `modsqr sa` (30_encoding.md R99). -/
def modsqr (sa : Selector) : Instr := .modmul sa sa

/-- The pseudo-command `montsqr sa` (30_encoding.md R99). -/
def montsqr (sa : Selector) : Instr := .montmul sa sa

/-- The pseudo-command `rsaep`: the RSA step of encrypt, EM in ABUF (30_encoding.md R99). -/
def rsaep : Instr := .modexp 0#4

/-- The pseudo-command `mgf1h`: a mask of h = 32 bytes (30_encoding.md R99). -/
def mgf1h : Instr := .mgf1 32#16

end Instr
end Sys2Proof
end

