-- ==== Sys2Proof/Machine/State.lean ====
section
/-! DEFINITION. The whole state of the MMEE as plain data (10_state.md R20), what the outside does to it (10_state.md
R48, R50), why a step can stop, and the state after reset (10_state.md R51). -/

namespace Sys2Proof.Machine

/-- The nine byte buffers (10_state.md R38). -/
inductive Buf where
  | nbuf | ebuf | abuf | bbuf | rbuf | mbuf | lbuf | seed | digest
  deriving DecidableEq, Repr

/-- The buffers' contents: cells keyed by port byte address (20_memory.md R61), in the canonical form that
`Memory.wf` states. -/
abbrev Memory := List Host.Cell

/-- A turn, each an atomic step (00_scope.md R13, 20_memory.md R70). A list of them is the order that 10_state.md R48
calls a parameter of the step relation. The entropy source has no turn: it is an oracle (R13), whose answers are
`State.entropy`. -/
inductive Input where
  /-- The host reads a word, `MemRead` (20_memory.md R62). -/
  | read (a : WordAddr)
  /-- The host writes a word, `MemWrite` (20_memory.md R63). -/
  | write (a : WordAddr) (v : Word)
  /-- The engine takes its turn: its completion step when BUSY = 1, no step when BUSY = 0 (00_scope.md R13). -/
  | engine
  /-- `rst_n` is asserted and released. The cells are what the seven large buffers hold afterwards, which the spec
  leaves open (10_state.md R51, 70_reset_and_hazards.md R251-R253). -/
  | reset (contents : List Host.Cell)
  deriving DecidableEq, Repr

/-- The state. Reserved bits of CTRL, STATUS, ERRINFO and the length registers read 0 and ignore writes (10_state.md
R37), so each register is held as its fields. -/
structure State where
  /-- KMAX and LMAX, constants of the block that CAP shows (10_state.md R24, R48). -/
  config : Config
  /-- `CTRL.IE_DONE` (10_state.md R25). -/
  ieDone : Bool
  /-- `CTRL.IE_ERR` (10_state.md R25). -/
  ieErr : Bool
  /-- `CTRL.SEEDSEL` (10_state.md R25). -/
  seedSel : Bool
  /-- `STATUS.BUSY`, which is the sequencer state: RUN iff 1 (10_state.md R22, R27). -/
  busy : Bool
  /-- `STATUS.DONE` (10_state.md R28). -/
  done : Bool
  /-- `STATUS.ERR` (10_state.md R28). -/
  err : Bool
  /-- `STATUS.KEYOK` (10_state.md R29). -/
  keyok : Bool
  /-- `STATUS.LOCKV` (10_state.md R30). -/
  lockv : Bool
  /-- `ERRINFO[7:0]` (10_state.md R31). -/
  errCode : BitVec 8
  /-- `ERRINFO[15:8]` (10_state.md R31). -/
  errSub : BitVec 8
  /-- `KLEN[15:0]` (10_state.md R33). -/
  klen : Half
  /-- `MLEN[15:0]` (10_state.md R34). -/
  mlen : Half
  /-- `LLEN[15:0]` (10_state.md R35). -/
  llen : Half
  /-- `N0INV` (10_state.md R36). -/
  n0inv : Word
  /-- NBUF, EBUF, ABUF, BBUF, RBUF, MBUF, LBUF, SEED, DIGEST (10_state.md R38). -/
  mem : Memory
  /-- `CMDREG`, hidden (10_state.md R47). -/
  cmdreg : Word
  /-- `SEEDSEL_L`, hidden (10_state.md R47). -/
  seedSelL : Bool
  /-- `RR`, hidden, an integer below 2^(8·KMAX) (10_state.md R20, R47). -/
  rr : Nat
  /-- The model's own: the port's `rdata` of the last host read (10_state.md R50; notes/assumptions/3.md). -/
  rdata : Word
  /-- The model's own: the answers of the entropy port, the bytes that RngDraw will return, oldest first. They are a
  free input of OAEPENC's completion step, which alone reads them (00_scope.md R13, 10_state.md R45, R48;
  notes/assumptions/2.md). -/
  entropy : List Byte
  /-- The model's own: what the outside does next, oldest first (10_state.md R48; notes/assumptions/1.md). -/
  inputs : List Input
  deriving DecidableEq, Repr

/-- Why the machine stops. Nothing in the spec stops it: a command error is a next state (60_exceptions.md R224),
an unmapped or misaligned access is defined or cannot be expressed (20_memory.md R65, R66), so no constructor is
needed and nobody raises one. Safe: nothing is cut short. See notes/assumptions/8.md. -/
inductive Fault where
  deriving DecidableEq, Repr

/-- Why a step has no meaning in the model. -/
inductive Refusal where
  /-- Raised only by an arm of `exec` for a command that has no meaning yet; safe. No arm raises it now. -/
  | notModelled (mnemonic : String)
  deriving DecidableEq, Repr

/-- The reset state of a block with the given parameters whose large buffers hold `contents` (10_state.md R51).
CMDREG, SEEDSEL_L and RR are unspecified and unobservable there (notes/assumptions/6.md). -/
def State.resetWith (config : Config) (contents : Memory) : State where
  config := config
  ieDone := false
  ieErr := false
  seedSel := false
  busy := false
  done := false
  err := false
  keyok := false
  lockv := false
  errCode := 0#8
  errSub := 0#8
  klen := 0#16
  mlen := 0#16
  llen := 0#16
  n0inv := 0#32
  mem := contents
  cmdreg := 0#32
  seedSelL := false
  rr := 0
  rdata := 0#32
  entropy := []
  inputs := []

/-- The machine right after reset (10_state.md R51), with the suggested parameters. The large buffers are
unspecified there: reading 0x00 is the model's DESIGN CHOICE (notes/assumptions/5.md). -/
def State.reset : State := State.resetWith Config.suggested []

end Sys2Proof.Machine
end

