-- ==== Sys2Proof/Machine/Ops.lean ====
section
/-! DEFINITION. The named operations every command and every host transaction is written over: byte strings and
integers (00_scope.md R8-R10), the buffers as one canonical memory (10_state.md R38, 20_memory.md R61), the commit
of a command (40_command_execution.md R112), error entry as one operation (60_exceptions.md R224) and the return from
it (R227). -/

namespace Sys2Proof.Machine

/-! ### Byte strings and integers -/

/-- `be_int(B)` (00_scope.md R10): byte 0 is the most significant. -/
def beInt (bs : List Byte) : Nat := bs.foldl (fun acc b => acc * 256 + b.toNat) 0

/-- `be_bytes(v, c)` (00_scope.md R10), for `v < 256^c`; byte `i` is the digit of weight `256^(c-1-i)`. -/
def beBytes (v c : Nat) : List Byte :=
  (List.range c).map fun i => BitVec.ofNat 8 (v / 256 ^ (c - 1 - i))

/-- `zeros(c)` (00_scope.md R9). -/
def zeroBytes (c : Nat) : List Byte := List.replicate c 0#8

/-- Bytewise XOR of equal-length byte strings (00_scope.md R8). -/
def xorBytes (as bs : List Byte) : List Byte := List.zipWith (fun a b => a ^^^ b) as bs

/-- The slice `B[i:j]` (00_scope.md R9). -/
def slice (bs : List Byte) (i j : Nat) : List Byte := (bs.drop i).take (j - i)

/-! ### Memory -/

/-- What an address that no cell lists reads as. SEED and DIGEST are all-zero after reset (10_state.md R51); for the
seven large buffers this is a DESIGN CHOICE (notes/assumptions/5.md). -/
def Memory.unlisted : Byte := 0#8

/-- The canonical form: addresses strictly rising, no cell equal to what an unlisted address reads as. -/
def Memory.wf : Memory → Bool
  | [] => true
  | [c] => c.2 != Memory.unlisted
  | c :: d :: m => c.2 != Memory.unlisted && decide (c.1 < d.1) && Memory.wf (d :: m)

/-- Read one byte. -/
def Memory.read : Memory → Nat → Byte
  | [], _ => Memory.unlisted
  | c :: m, a => if c.1 = a then c.2 else Memory.read m a

/-- A cell in front of `m`, unless it would say what an unlisted address reads as anyway. -/
def Memory.cons (a : Nat) (v : Byte) (m : Memory) : Memory :=
  if v = Memory.unlisted then m else (a, v) :: m

/-- Write one byte, keeping the canonical form. -/
def Memory.write : Memory → Nat → Byte → Memory
  | [], a, v => Memory.cons a v []
  | c :: m, a, v =>
    if a < c.1 then Memory.cons a v (c :: m)
    else if a = c.1 then Memory.cons a v m
    else c :: Memory.write m a v

/-- Read the `len` bytes from address `a` up. -/
def Memory.readBytes (m : Memory) (a len : Nat) : List Byte :=
  (List.range len).map fun i => m.read (a + i)

/-- Write a byte string from address `a` up. -/
def Memory.writeBytes (m : Memory) (a : Nat) : List Byte → Memory
  | [] => m
  | b :: bs => (m.write a b).writeBytes (a + 1) bs

/-- A 32-bit word from its four bytes, the first in bits 31:24 (20_memory.md R64(b)). -/
def wordOfBytes (b0 b1 b2 b3 : Byte) : Word := b0 ++ b1 ++ b2 ++ b3

/-- The four bytes of a word, bits 31:24 first (20_memory.md R64(b)). -/
def bytesOfWord (w : Word) : List Byte :=
  [w.extractLsb' 24 8, w.extractLsb' 16 8, w.extractLsb' 8 8, w.extractLsb' 0 8]

/-- The port word at byte address `a` (20_memory.md R62, R64). -/
def Memory.readWord (m : Memory) (a : Nat) : Word :=
  wordOfBytes (m.read a) (m.read (a + 1)) (m.read (a + 2)) (m.read (a + 3))

/-! ### Buffers -/

/-- Window base of a buffer (10_state.md R38, 20_memory.md R61). -/
def Buf.base : Buf → Nat
  | .nbuf => 0x0400
  | .ebuf => 0x0800
  | .abuf => 0x0C00
  | .bbuf => 0x1000
  | .rbuf => 0x1400
  | .mbuf => 0x1800
  | .lbuf => 0x1C00
  | .seed => 0x0040
  | .digest => 0x0060

/-- Size of a buffer in bytes (10_state.md R38). -/
def Buf.size (c : Config) : Buf → Nat
  | .nbuf | .ebuf | .abuf | .bbuf | .rbuf | .mbuf => c.kmax
  | .lbuf => c.lmax
  | .seed | .digest => 32

/-- The seven buffers that reset does not clear (10_state.md R51). -/
def Buf.isLarge : Buf → Bool
  | .nbuf | .ebuf | .abuf | .bbuf | .rbuf | .mbuf | .lbuf => true
  | .seed | .digest => false

/-- Every buffer once. -/
def Buf.all : List Buf := [.nbuf, .ebuf, .abuf, .bbuf, .rbuf, .mbuf, .lbuf, .seed, .digest]

/-- Byte address `a` lies in buffer `b`. -/
def Buf.holds (c : Config) (b : Buf) (a : Nat) : Bool :=
  decide (b.base ≤ a) && decide (a < b.base + b.size c)

/-- Byte address `a` is a byte of some buffer (20_memory.md R61, R66). -/
def mappedByte (c : Config) (a : Nat) : Bool := Buf.all.any fun b => b.holds c a

/-- Byte address `a` is a byte of a buffer that reset does not clear (10_state.md R51). -/
def largeByte (c : Config) (a : Nat) : Bool := Buf.all.any fun b => b.isLarge && b.holds c a

/-- The memory after a reset that leaves `contents` in the large buffers; SEED and DIGEST are zero (10_state.md R51).
Cells at any other address say nothing. -/
def Memory.afterReset (c : Config) (contents : List Host.Cell) : Memory :=
  contents.foldl (fun m cell => if largeByte c cell.1 then m.write cell.1 cell.2 else m) []

/-- The slice `BUF[0:len]` (10_state.md R38, 20_memory.md R74). -/
def State.buf (s : State) (b : Buf) (len : Nat) : List Byte := s.mem.readBytes b.base len

/-- `BUF[0:len(bytes)] <- bytes`: bytes beyond the slice keep their values (20_memory.md R65,
40_command_execution.md R114). -/
def State.setBuf (s : State) (b : Buf) (bytes : List Byte) : State :=
  { s with mem := s.mem.writeBytes b.base bytes }

/-! ### Errors, completion, return -/

/-- The error codes (60_exceptions.md R221). -/
inductive ErrCode where
  | opcode | param | nokey | modulus | range | msglen | decode
  deriving DecidableEq, Repr

/-- The number of an error code (60_exceptions.md R221). -/
def ErrCode.number : ErrCode → BitVec 8
  | .opcode => 1#8
  | .param => 2#8
  | .nokey => 3#8
  | .modulus => 4#8
  | .range => 5#8
  | .msglen => 6#8
  | .decode => 7#8

/-- What `Exec` gives (40_command_execution.md R112, R113). -/
inductive CmdResult where
  /-- `Ok(writes)`: the state with the writes applied, STATUS not yet touched but for KEYOK. -/
  | ok (written : State)
  /-- `Err(E, sub)`. -/
  | err (code : ErrCode) (sub : BitVec 8)
  /-- The entropy port does not answer: the completion step does not happen (70_reset_and_hazards.md R261). -/
  | pending

/-- Error entry, `raise E(sub)` (60_exceptions.md R224). -/
def State.raiseError (s : State) (code : ErrCode) (sub : BitVec 8) : State :=
  { s with errCode := code.number, errSub := sub, err := true, busy := false }

/-- The end of a successful completion step (40_command_execution.md R112). -/
def State.commit (s : State) : State := { s with done := true, busy := false }

/-- `Complete()` (40_command_execution.md R112): commit, error entry, or, while the entropy port does not answer, no
completion yet. -/
def complete (s : State) : CmdResult → Host.Outcome State Fault Refusal
  | .ok written => .next written.commit
  | .err code sub => .next (s.raiseError code sub)
  | .pending => .next s

/-- A W1C write to STATUS (10_state.md R26, 20_memory.md R63). It is the host's return from an error: bit 2 clears
ERR, and ERRINFO keeps its value (60_exceptions.md R227). -/
def State.clearStatus (s : State) (v : Word) : State :=
  { s with
    done := s.done && !v.getLsbD 1
    err := s.err && !v.getLsbD 2
    lockv := s.lockv && !v.getLsbD 4 }

/-- Acceptance of command word `w` (40_command_execution.md R110). It is the other return from an error: DONE, ERR and
ERRINFO are cleared (60_exceptions.md R227). -/
def State.accept (s : State) (w : Word) : State :=
  { s with
    cmdreg := w
    seedSelL := s.seedSel
    busy := true
    done := false
    err := false
    errCode := 0#8
    errSub := 0#8 }

/-- Run `f` on a next state; a fault or a refusal stays. -/
def andThen (o : Host.Outcome State Fault Refusal) (f : State → Host.Outcome State Fault Refusal) :
    Host.Outcome State Fault Refusal :=
  match o with
  | .next s => f s
  | .fault r => .fault r
  | .refused r => .refused r

end Sys2Proof.Machine
end

