-- ==== Sys2Proof/WellFormed.lean ====
section
/-! DEFINITION. Which selector values each command admits (30_encoding.md R94, R95). A term outside them is an
illegal command (R97). -/

namespace Sys2Proof

/-- Selectors of MONTMUL, MODMUL, MODEXP and OAEPDEC: ABUF, BBUF, RBUF (30_encoding.md R94). -/
def operandSelector (x : Selector) : Bool := decide (x.toNat ≤ 2)

/-- Selectors of HASH: MBUF, LBUF (30_encoding.md R94). -/
def hashSelector (x : Selector) : Bool := x == 3#4 || x == 4#4

/-- The command's selectors are in its row's subset (30_encoding.md R95). -/
def Instr.wellFormed : Instr → Bool
  | .nop => true
  | .minit => true
  | .montmul sa sb => operandSelector sa && operandSelector sb
  | .modmul sa sb => operandSelector sa && operandSelector sb
  | .modexp sa => operandSelector sa
  | .hash sa => hashSelector sa
  | .mgf1 _ => true
  | .oaepenc => true
  | .oaepdec sa => operandSelector sa

/-- The proposition that a command is well formed. -/
abbrev Instr.WellFormed (i : Instr) : Prop := i.wellFormed = true

end Sys2Proof
end

