-- ==== Sys2Proof/Machine/Operands.lean ====
section
/-! DEFINITION. The operands of commands: buffer selectors (30_encoding.md R94), the integers and byte strings a command
reads (41_montgomery.md R130, 10_state.md R39-R43), and the entropy port (10_state.md R45). -/

namespace Sys2Proof.Machine

/-- `Sel(x)` (30_encoding.md R94). -/
def sel (x : Selector) : Option Buf :=
  if x = 0#4 then some .abuf
  else if x = 1#4 then some .bbuf
  else if x = 2#4 then some .rbuf
  else if x = 3#4 then some .mbuf
  else if x = 4#4 then some .lbuf
  else none

/-- The buffer of a selector of MONTMUL, MODMUL, MODEXP, OAEPDEC: {0, 1, 2} (30_encoding.md R94, R95). -/
def operandBuf (x : Selector) : Option Buf := if operandSelector x then sel x else none

/-- The buffer of a selector of HASH: {3, 4} (30_encoding.md R94, R95). -/
def hashBuf (x : Selector) : Option Buf := if hashSelector x then sel x else none

/-- The length register that goes with a selector's buffer (30_encoding.md R94). -/
def State.lengthOf (s : State) : Buf → Nat
  | .mbuf => s.mlen.toNat
  | .lbuf => s.llen.toNat
  | _ => s.klen.toNat

/-- `k = KLEN` (41_montgomery.md R130). -/
def State.k (s : State) : Nat := s.klen.toNat

/-- `n = be_int(NBUF[0:k])` (10_state.md R39, 41_montgomery.md R130). -/
def State.modulus (s : State) : Nat := beInt (s.buf .nbuf s.k)

/-- `e = be_int(EBUF[0:k])` (10_state.md R40, 41_montgomery.md R130). -/
def State.exponent (s : State) : Nat := beInt (s.buf .ebuf s.k)

/-- `Int(x) = be_int(Sel(x)[0:k])` (10_state.md R41, 41_montgomery.md R130). -/
def State.operand (s : State) (b : Buf) : Nat := beInt (s.buf b s.k)

/-- The message, hash input or seed `MBUF[0:MLEN]` (10_state.md R42). -/
def State.message (s : State) : List Byte := s.buf .mbuf s.mlen.toNat

/-- The label `LBUF[0:LLEN]` (10_state.md R43). -/
def State.label (s : State) : List Byte := s.buf .lbuf s.llen.toNat

/-- `RngDraw(c)` (10_state.md R45): the next `c` bytes of the entropy port and the state without them; none while the
port has fewer (70_reset_and_hazards.md R261). -/
def State.rngDraw (s : State) (c : Nat) : Option (List Byte × State) :=
  if c ≤ s.entropy.length then some (s.entropy.take c, { s with entropy := s.entropy.drop c })
  else none

end Sys2Proof.Machine
end

