-- ==== Sys2Proof/Machine/Flags.lean ====
section
/-! DEFINITION. The read values of the control registers, the effect of their writes on flags, and the interrupt output
(10_state.md R23-R37, R49). -/

namespace Sys2Proof.Machine

/-- A flag as the bit of weight `2^i` of a register. -/
def flagBit (b : Bool) (i : Nat) : Word := if b then BitVec.ofNat 32 (2 ^ i) else 0#32

/-- The read value of CTRL (10_state.md R25). -/
def State.ctrlWord (s : State) : Word :=
  flagBit s.ieDone 0 ||| flagBit s.ieErr 1 ||| flagBit s.seedSel 2

/-- The read value of STATUS (10_state.md R26). -/
def State.statusWord (s : State) : Word :=
  flagBit s.busy 0 ||| flagBit s.done 1 ||| flagBit s.err 2 ||| flagBit s.keyok 3 ||| flagBit s.lockv 4

/-- The read value of ERRINFO (10_state.md R31). -/
def State.errinfoWord (s : State) : Word := (s.errSub ++ s.errCode : BitVec 16).setWidth 32

/-- The read value of CAP (10_state.md R24). -/
def State.capWord (s : State) : Word := BitVec.ofNat 32 (s.config.lmax * 65536 + s.config.kmax)

/-- The interrupt output (10_state.md R49, 60_exceptions.md R229). -/
def State.irq (s : State) : Bool := (s.done && s.ieDone) || (s.err && s.ieErr)

/-- A write to CTRL (10_state.md R25, 20_memory.md R63). -/
def State.writeCtrl (s : State) (v : Word) : State :=
  { s with ieDone := v.getLsbD 0, ieErr := v.getLsbD 1, seedSel := v.getLsbD 2 }

/-- A lock violation (10_state.md R30, 20_memory.md R67). -/
def State.lockViolation (s : State) : State := { s with lockv := true }

/-- The key constants are stale (10_state.md R29). -/
def State.clearKeyok (s : State) : State := { s with keyok := false }

end Sys2Proof.Machine
end

