-- ==== Sys2Proof/Machine/System.lean ====
section
/-! DEFINITION. The command NOP and the completion of an illegal word (40_command_execution.md R113, R115;
30_encoding.md R97). -/

namespace Sys2Proof.Machine

/-- `NOP`: `Exec = Ok({})` (40_command_execution.md R115). -/
def execNop (s : State) : Host.Outcome State Fault Refusal := complete s (.ok s)

/-- What a term with a selector outside its command's subset gives, as the illegal word it stands for
(30_encoding.md R97). -/
def illegalCommand : CmdResult := .err .opcode 0#8

/-- The completion step of a word that decodes to ILLEGAL (30_encoding.md R97, 40_command_execution.md R113). -/
def execIllegal (s : State) : Host.Outcome State Fault Refusal := complete s illegalCommand

end Sys2Proof.Machine
end

