-- ==== Sys2Proof/Machine/Hash.lean ====
section
/-! DEFINITION. The hash unit: SHA-256 (42_hash_mgf1.md R160-R163), MGF1 (R166) and the commands HASH (R164) and MGF1
(R167). -/

namespace Sys2Proof.Machine

/-! ### SHA-256 -/

/-- The eight working words, the chaining state `H[0..7]` or `a..hh` (42_hash_mgf1.md R162, R163). -/
structure Sha where
  a : Word
  b : Word
  c : Word
  d : Word
  e : Word
  f : Word
  g : Word
  h : Word
  deriving DecidableEq, Repr

/-- The initial state (42_hash_mgf1.md R162). -/
def Sha.initial : Sha where
  a := 0x6a09e667#32
  b := 0xbb67ae85#32
  c := 0x3c6ef372#32
  d := 0xa54ff53a#32
  e := 0x510e527f#32
  f := 0x9b05688c#32
  g := 0x1f83d9ab#32
  h := 0x5be0cd19#32

/-- The round constants `K[0..63]` (42_hash_mgf1.md R162). -/
def roundConstants : List Word :=
    [ 0x428a2f98#32, 0x71374491#32, 0xb5c0fbcf#32, 0xe9b5dba5#32,
      0x3956c25b#32, 0x59f111f1#32, 0x923f82a4#32, 0xab1c5ed5#32,
      0xd807aa98#32, 0x12835b01#32, 0x243185be#32, 0x550c7dc3#32,
      0x72be5d74#32, 0x80deb1fe#32, 0x9bdc06a7#32, 0xc19bf174#32 ] ++
    [ 0xe49b69c1#32, 0xefbe4786#32, 0x0fc19dc6#32, 0x240ca1cc#32,
      0x2de92c6f#32, 0x4a7484aa#32, 0x5cb0a9dc#32, 0x76f988da#32,
      0x983e5152#32, 0xa831c66d#32, 0xb00327c8#32, 0xbf597fc7#32,
      0xc6e00bf3#32, 0xd5a79147#32, 0x06ca6351#32, 0x14292967#32 ] ++
    [ 0x27b70a85#32, 0x2e1b2138#32, 0x4d2c6dfc#32, 0x53380d13#32,
      0x650a7354#32, 0x766a0abb#32, 0x81c2c92e#32, 0x92722c85#32,
      0xa2bfe8a1#32, 0xa81a664b#32, 0xc24b8b70#32, 0xc76c51a3#32,
      0xd192e819#32, 0xd6990624#32, 0xf40e3585#32, 0x106aa070#32 ] ++
    [ 0x19a4c116#32, 0x1e376c08#32, 0x2748774c#32, 0x34b0bcb5#32,
      0x391c0cb3#32, 0x4ed8aa4a#32, 0x5b9cca4f#32, 0x682e6ff3#32,
      0x748f82ee#32, 0x78a5636f#32, 0x84c87814#32, 0x8cc70208#32,
      0x90befffa#32, 0xa4506ceb#32, 0xbef9a3f7#32, 0xc67178f2#32 ]

/-- `P`, the padded message (42_hash_mgf1.md R161); `z = (55 - len(B)) mod 64`. -/
def shaPad (msg : List Byte) : List Byte :=
  msg ++ [0x80#8] ++ zeroBytes ((119 - msg.length % 64) % 64) ++ beBytes (8 * msg.length) 8

/-- `s0` of the message schedule (42_hash_mgf1.md R163). -/
def scheduleS0 (x : Word) : Word := x.rotateRight 7 ^^^ x.rotateRight 18 ^^^ (x >>> 3)

/-- `s1` of the message schedule (42_hash_mgf1.md R163). -/
def scheduleS1 (x : Word) : Word := x.rotateRight 17 ^^^ x.rotateRight 19 ^^^ (x >>> 10)

/-- `Wd[t]` from the earlier words, the newest first (42_hash_mgf1.md R163). -/
def scheduleNext (earlier : List Word) : Word :=
  earlier.getD 15 0#32 + scheduleS0 (earlier.getD 14 0#32) + earlier.getD 6 0#32 + scheduleS1 (earlier.getD 1 0#32)

/-- `count` further words in front of the earlier ones, the newest first. -/
def scheduleExtend : Nat → List Word → List Word
  | 0, earlier => earlier
  | count + 1, earlier => scheduleExtend count (scheduleNext earlier :: earlier)

/-- `Wd[0..15]` of a 64-byte block (42_hash_mgf1.md R163). -/
def blockWords (block : List Byte) : List Word :=
  (List.range 16).map fun t => BitVec.ofNat 32 (beInt (slice block (4 * t) (4 * t + 4)))

/-- `Wd[0..63]` of a 64-byte block (42_hash_mgf1.md R163). -/
def schedule (block : List Byte) : List Word := (scheduleExtend 48 (blockWords block).reverse).reverse

/-- One round with `K[t]` and `Wd[t]` (42_hash_mgf1.md R163). -/
def Sha.round (s : Sha) (kw : Word × Word) : Sha :=
  let s1 := s.e.rotateRight 6 ^^^ s.e.rotateRight 11 ^^^ s.e.rotateRight 25
  let ch := (s.e &&& s.f) ^^^ (~~~s.e &&& s.g)
  let t1 := s.h + s1 + ch + kw.1 + kw.2
  let s0 := s.a.rotateRight 2 ^^^ s.a.rotateRight 13 ^^^ s.a.rotateRight 22
  let maj := (s.a &&& s.b) ^^^ (s.a &&& s.c) ^^^ (s.b &&& s.c)
  { a := t1 + (s0 + maj), b := s.a, c := s.b, d := s.c, e := s.d + t1, f := s.e, g := s.f, h := s.g }

/-- Wordwise addition modulo 2^32. -/
def Sha.add (x y : Sha) : Sha :=
  { a := x.a + y.a, b := x.b + y.b, c := x.c + y.c, d := x.d + y.d,
    e := x.e + y.e, f := x.f + y.f, g := x.g + y.g, h := x.h + y.h }

/-- The compression of one block into the chaining state (42_hash_mgf1.md R163). -/
def Sha.compress (s : Sha) (block : List Byte) : Sha :=
  s.add ((roundConstants.zip (schedule block)).foldl Sha.round s)

/-- The 64-byte blocks of a padded message, in order. -/
def blocks (padded : List Byte) : List (List Byte) :=
  (List.range (padded.length / 64)).map fun i => slice padded (64 * i) (64 * i + 64)

/-- `be_bytes(H[0],4) ‖ … ‖ be_bytes(H[7],4)` (42_hash_mgf1.md R160). -/
def Sha.bytes (s : Sha) : List Byte :=
  bytesOfWord s.a ++ bytesOfWord s.b ++ bytesOfWord s.c ++ bytesOfWord s.d ++
    bytesOfWord s.e ++ bytesOfWord s.f ++ bytesOfWord s.g ++ bytesOfWord s.h

/-- `SHA256(B)` (42_hash_mgf1.md R160). -/
def sha256 (msg : List Byte) : List Byte := ((blocks (shaPad msg)).foldl Sha.compress Sha.initial).bytes

/-! ### MGF1 -/

/-- `SHA256(S ‖ be_bytes(counter, 4))` for counter 0, 1, …, `count` of them, concatenated (42_hash_mgf1.md R166). -/
def mgf1Blocks (seed : List Byte) (count : Nat) : List Byte :=
  (List.range count).flatMap fun counter => sha256 (seed ++ beBytes counter 4)

/-- `MGF1(S, L)` (42_hash_mgf1.md R166): `ceil(L/32)` hashes, truncated to `L` bytes. -/
def mgf1Mask (seed : List Byte) (len : Nat) : List Byte :=
  (mgf1Blocks seed ((len + (Config.hLen - 1)) / Config.hLen)).take len

/-- MGF1 as a general function refuses `L > 2^32 · 32` (42_hash_mgf1.md R168). No command reaches that: `L` is below
65536 in all of them. -/
def mgf1General (seed : List Byte) (len : Nat) : Option (List Byte) :=
  if len ≤ 2 ^ 32 * Config.hLen then some (mgf1Mask seed len) else none

/-! ### Commands -/

/-- The size of the buffer a HASH selector names (42_hash_mgf1.md R164). -/
def State.bufSize (s : State) (b : Buf) : Nat := b.size s.config

/-- `Exec(HASH(sa))` for the input in buffer `b` (42_hash_mgf1.md R164). -/
def hash (b : Buf) (s : State) : CmdResult :=
  if s.bufSize b < s.lengthOf b then .err .param 0#8
  else .ok (s.setBuf .digest (sha256 (s.buf b (s.lengthOf b))))

/-- `HASH sa` (42_hash_mgf1.md R164). -/
def execHash (sa : Selector) (s : State) : Host.Outcome State Fault Refusal :=
  complete s <|
    match hashBuf sa with
    | some b => hash b s
    | none => illegalCommand

/-- `Exec(MGF1(L))` (42_hash_mgf1.md R167). -/
def mgf1 (len : Half) (s : State) : CmdResult :=
  if s.config.kmax < s.mlen.toNat ∨ s.config.kmax < len.toNat then .err .param 0#8
  else .ok (s.setBuf .rbuf (mgf1Mask s.message len.toNat))

/-- `MGF1 #L` (42_hash_mgf1.md R167). -/
def execMgf1 (len : Half) (s : State) : Host.Outcome State Fault Refusal := complete s (mgf1 len s)

end Sys2Proof.Machine
end

