-- ==== Sys2Proof/Machine/Montgomery.lean ====
section
/-! DEFINITION. The Montgomery unit: MINIT, MONTMUL, MODMUL, MODEXP (41_montgomery.md), the functions their results are
stated with, and the two informative reference sequences (R132, R137), which no command's meaning uses. -/

namespace Sys2Proof.Machine

/-! ### Functions -/

/-- `a^e mod n` by squaring, over `fuel` low bits of `e`. -/
def powModBits (n : Nat) : Nat → Nat → Nat → Nat
  | 0, _, _ => 1 % n
  | fuel + 1, a, e =>
    if e % 2 = 1 then a * powModBits n fuel (a * a % n) (e / 2) % n
    else powModBits n fuel (a * a % n) (e / 2)

/-- `(a ^ e) mod n` (41_montgomery.md R136), computed by squaring so that a large exponent can be run;
`powMod_eq` in Laws says the two are equal. -/
def powMod (a e n : Nat) : Nat := powModBits n (e.log2 + 1) a e

/-- `s(k) = ceil(k/4)`, the number of 32-bit words of a k-byte operand (00_scope.md R6). -/
def wordCount (k : Nat) : Nat := (k + 3) / 4

/-- `Rm(k) = 2^(32·s(k))`, the Montgomery radix (00_scope.md R6). -/
def radix (k : Nat) : Nat := 2 ^ (Config.wordBits * wordCount k)

/-- `Rinv`, the inverse of `Rm` modulo an odd `n ≥ 3` (41_montgomery.md R131): the inverse of 2 is `(n+1)/2`, and `Rm`
is a power of 2. `radix_mul_rInv` in Laws says that it is the inverse. -/
def rInv (n k : Nat) : Nat := powMod ((n + 1) / 2) (Config.wordBits * wordCount k) n

/-- The Montgomery product `MontMul(a, b, n, k) = (a · b · Rinv) mod n` (41_montgomery.md R131). -/
def montMul (a b n k : Nat) : Nat := a * b * rInv n k % n

/-- One bit of `N0INV`: make bit `j` of `n·x + 1` zero. -/
def negInvStep (n x j : Nat) : Nat := if (n * x + 1) / 2 ^ j % 2 = 1 then x + 2 ^ j else x

/-- The `x` in `[0, 2^32)` with `(n·x + 1) mod 2^32 = 0`, for odd `n` (41_montgomery.md R133), bit by bit.
`negInvWord_spec` in Laws says that it is that `x`. -/
def negInvWord (n : Nat) : Nat := (List.range Config.wordBits).foldl (negInvStep n) 0

/-- `RR = Rm² mod n` (41_montgomery.md R133). -/
def radixSquared (n k : Nat) : Nat := radix k * radix k % n

/-! ### Commands -/

/-- `RBUF[0:k] <- be_bytes(v, k)` (41_montgomery.md R139). -/
def State.setResult (s : State) (v : Nat) : State := s.setBuf .rbuf (beBytes v s.k)

/-- `Exec(MINIT)` (41_montgomery.md R133). -/
def minit (s : State) : CmdResult :=
  if s.k = 0 ∨ s.config.kmax < s.k then .err .param 0#8
  else if s.mem.read Buf.nbuf.base = 0#8 ∨ (s.mem.read (Buf.nbuf.base + (s.k - 1))).getLsbD 0 = false ∨ s.modulus < 3 then
    .err .modulus 0#8
  else
    .ok { s with
      n0inv := BitVec.ofNat 32 (negInvWord s.modulus)
      rr := radixSquared s.modulus s.k
      keyok := true }

/-- `MINIT` (41_montgomery.md R133). -/
def execMinit (s : State) : Host.Outcome State Fault Refusal := complete s (minit s)

/-- `Exec(MONTMUL(sa, sb))` for operands in buffers `a`, `b` (41_montgomery.md R134). -/
def montmul (a b : Buf) (s : State) : CmdResult :=
  if s.keyok = false then .err .nokey 0#8
  else if s.modulus ≤ s.operand a ∨ s.modulus ≤ s.operand b then .err .range 0#8
  else .ok (s.setResult (montMul (s.operand a) (s.operand b) s.modulus s.k))

/-- `MONTMUL sa, sb` (41_montgomery.md R134). -/
def execMontmul (sa sb : Selector) (s : State) : Host.Outcome State Fault Refusal :=
  complete s <|
    match operandBuf sa, operandBuf sb with
    | some a, some b => montmul a b s
    | _, _ => illegalCommand

/-- `Exec(MODMUL(sa, sb))` for operands in buffers `a`, `b` (41_montgomery.md R135). -/
def modmul (a b : Buf) (s : State) : CmdResult :=
  if s.keyok = false then .err .nokey 0#8
  else .ok (s.setResult (s.operand a * s.operand b % s.modulus))

/-- `MODMUL sa, sb` (41_montgomery.md R135). -/
def execModmul (sa sb : Selector) (s : State) : Host.Outcome State Fault Refusal :=
  complete s <|
    match operandBuf sa, operandBuf sb with
    | some a, some b => modmul a b s
    | _, _ => illegalCommand

/-- `Exec(MODEXP(sa))` for the base in buffer `a` (41_montgomery.md R136). -/
def modexp (a : Buf) (s : State) : CmdResult :=
  if s.keyok = false then .err .nokey 0#8
  else .ok (s.setResult (powMod (s.operand a) s.exponent s.modulus))

/-- `MODEXP sa` (41_montgomery.md R136). -/
def execModexp (sa : Selector) (s : State) : Host.Outcome State Fault Refusal :=
  complete s <|
    match operandBuf sa with
    | some a => modexp a s
    | none => illegalCommand

/-! ### Reference sequences (informative) -/

/-- The base-2^32 digits of `v`, `count` of them, digit 0 least significant (41_montgomery.md R132). -/
def wordDigits (v count : Nat) : List Nat :=
  (List.range count).map fun i => v / 2 ^ (Config.wordBits * i) % 2 ^ Config.wordBits

/-- The value of a list of base-2^32 digits, digit 0 least significant. -/
def digitsValue : List Nat → Nat
  | [] => 0
  | d :: ds => d + 2 ^ Config.wordBits * digitsValue ds

/-- One inner loop of 41_montgomery.md R132: `(C, t[j]) <- t[j] + x[j]·y + C` over all `j`, giving the words and the
last carry. -/
def mulAddRow (y : Nat) : Nat → List Nat → List Nat → List Nat × Nat
  | carry, t :: ts, x :: xs =>
    let sum := t + x * y + carry
    let rest := mulAddRow y (sum / 2 ^ Config.wordBits) ts xs
    (sum % 2 ^ Config.wordBits :: rest.1, rest.2)
  | carry, _, _ => ([], carry)

/-- The body of the outer loop of 41_montgomery.md R132 for one digit `bi` of `b`, on `t[0..s-1]` and `t[s]`. -/
def ciosStep (aDigits nDigits : List Nat) (n0 : Nat) (t : List Nat × Nat) (bi : Nat) : List Nat × Nat :=
  let prod := mulAddRow bi 0 t.1 aDigits
  let high := t.2 + prod.2
  let m := prod.1.headD 0 * n0 % 2 ^ Config.wordBits
  let red := mulAddRow m 0 prod.1 nDigits
  let top := high % 2 ^ Config.wordBits + red.2
  (red.1.tail ++ [top % 2 ^ Config.wordBits], high / 2 ^ Config.wordBits + top / 2 ^ Config.wordBits)

/-- The word-serial algorithm of 41_montgomery.md R132. -/
def montMulWordSerial (a b n n0 k : Nat) : Nat :=
  let s := wordCount k
  let t := (wordDigits b s).foldl (ciosStep (wordDigits a s) (wordDigits n s) n0) (List.replicate s 0, 0)
  let u := digitsValue t.1 + 2 ^ (Config.wordBits * s) * t.2
  if n ≤ u then u - n else u

/-- The bits of `e` from `bit_length(e) - 1` down to 0. -/
def exponentBits (e : Nat) : List Bool :=
  if e = 0 then [] else (List.range (e.log2 + 1)).reverse.map e.testBit

/-- The left-to-right binary exponentiation of 41_montgomery.md R137, on the constant `rr`. -/
def modexpSequence (a e n k rr : Nat) : Nat :=
  let abar := montMul a rr n k
  let x := (exponentBits e).foldl
    (fun x bit => if bit then montMul (montMul x x n k) abar n k else montMul x x n k) (montMul 1 rr n k)
  montMul x 1 n k

/-- The two products by which the unit computes MODMUL (41_montgomery.md R135, informative). -/
def modmulSequence (a b n k rr : Nat) : Nat := montMul (montMul a rr n k) b n k

end Sys2Proof.Machine
end

