-- ==== Sys2Proof/Decode.lean ====
section
/-! DEFINITION. Decoding of command words, total on all 2^32 words and strict (30_encoding.md R90-R97), the encoder
written from the same table, and the host's entry `decodeTableWord`. -/

namespace Sys2Proof

/-- Bits `w[7:0]` (30_encoding.md R91). -/
def opcodeField (w : Word) : BitVec 8 := w.extractLsb' 0 8

/-- Bits `w[11:8]` (30_encoding.md R91). -/
def saField (w : Word) : Selector := w.extractLsb' 8 4

/-- Bits `w[15:12]` (30_encoding.md R91). -/
def sbField (w : Word) : Selector := w.extractLsb' 12 4

/-- Bits `w[31:16]`, unsigned (30_encoding.md R91, R93). -/
def immField (w : Word) : Half := w.extractLsb' 16 16

/-- Why a word is ILLEGAL, one name per kind that 30_encoding.md R97 lists. The block reports all three as
E_OPCODE (60_exceptions.md R221). -/
inductive IllegalWord where
  /-- One of the 247 opcode values that R95 does not list. -/
  | unassignedOpcode
  /-- A legal opcode with a non-zero must-be-zero field (R92). -/
  | nonzeroUnusedField
  /-- A legal opcode with a selector outside its subset (R94). -/
  | selectorOutsideSubset
  deriving DecidableEq, Repr

/-- What decoding a word gives: a command, or ILLEGAL with its kind. -/
inductive Decoded where
  | instr (i : Instr)
  | illegal (why : IllegalWord)
  deriving DecidableEq, Repr

/-- The command that was decoded, if any. -/
def Decoded.toOption : Decoded → Option Instr
  | .instr i => some i
  | .illegal _ => none

/-- The opcode of a command (30_encoding.md R95). -/
def Instr.opcode : Instr → BitVec 8
  | .nop => 0x00#8
  | .minit => 0x01#8
  | .montmul _ _ => 0x02#8
  | .modmul _ _ => 0x03#8
  | .modexp _ => 0x04#8
  | .hash _ => 0x10#8
  | .mgf1 _ => 0x11#8
  | .oaepenc => 0x20#8
  | .oaepdec _ => 0x21#8

/-- A word whose unused fields are zero decodes to `i` when `i`'s selectors are in its subset. -/
def checkSelectors (i : Instr) : Decoded :=
  if i.wellFormed then .instr i else .illegal .selectorOutsideSubset

/-- Format Z: `w[31:8]` must be zero (30_encoding.md R92). -/
def decodeZ (w : Word) (i : Instr) : Decoded :=
  if saField w = 0#4 ∧ sbField w = 0#4 ∧ immField w = 0#16 then checkSelectors i
  else .illegal .nonzeroUnusedField

/-- Format S1: `sb` and `imm16` must be zero (30_encoding.md R92). -/
def decodeS1 (w : Word) (mk : Selector → Instr) : Decoded :=
  if sbField w = 0#4 ∧ immField w = 0#16 then checkSelectors (mk (saField w))
  else .illegal .nonzeroUnusedField

/-- Format S2: `imm16` must be zero (30_encoding.md R92). -/
def decodeS2 (w : Word) (mk : Selector → Selector → Instr) : Decoded :=
  if immField w = 0#16 then checkSelectors (mk (saField w) (sbField w))
  else .illegal .nonzeroUnusedField

/-- Format I: `sa` and `sb` must be zero (30_encoding.md R92). -/
def decodeI (w : Word) (mk : Half → Instr) : Decoded :=
  if saField w = 0#4 ∧ sbField w = 0#4 then checkSelectors (mk (immField w))
  else .illegal .nonzeroUnusedField

/-- `Decode(w)` of 30_encoding.md R96. -/
def decode (w : Word) : Decoded :=
  if opcodeField w = 0x00#8 then decodeZ w .nop
  else if opcodeField w = 0x01#8 then decodeZ w .minit
  else if opcodeField w = 0x02#8 then decodeS2 w .montmul
  else if opcodeField w = 0x03#8 then decodeS2 w .modmul
  else if opcodeField w = 0x04#8 then decodeS1 w .modexp
  else if opcodeField w = 0x10#8 then decodeS1 w .hash
  else if opcodeField w = 0x11#8 then decodeI w .mgf1
  else if opcodeField w = 0x20#8 then decodeZ w .oaepenc
  else if opcodeField w = 0x21#8 then decodeS1 w .oaepdec
  else .illegal .unassignedOpcode

/-- The four fields put together (30_encoding.md R91). -/
def pack (op : BitVec 8) (sa sb : Selector) (imm : Half) : Word :=
  imm ++ sb ++ sa ++ op

/-- The word of a command (30_encoding.md R95, R98): unused fields are zero. -/
def encode (i : Instr) : Word :=
  match i with
  | .nop => pack i.opcode 0#4 0#4 0#16
  | .minit => pack i.opcode 0#4 0#4 0#16
  | .montmul sa sb => pack i.opcode sa sb 0#16
  | .modmul sa sb => pack i.opcode sa sb 0#16
  | .modexp sa => pack i.opcode sa 0#4 0#16
  | .hash sa => pack i.opcode sa 0#4 0#16
  | .mgf1 len => pack i.opcode 0#4 0#4 len
  | .oaepenc => pack i.opcode 0#4 0#4 0#16
  | .oaepdec sa => pack i.opcode sa 0#4 0#16

/-- One row of the opcode map: a word is a candidate when `w AND mask = match` (30_encoding.md R95). -/
structure OpcodeRow where
  mnemonic : String
  matchWord : Word
  maskWord : Word
  deriving DecidableEq, Repr

/-- `w AND mask = match` (30_encoding.md R95). -/
def OpcodeRow.candidate (r : OpcodeRow) (w : Word) : Bool := w &&& r.maskWord == r.matchWord

/-- The opcode map as the table of 30_encoding.md R95 gives it, row by row. -/
def opcodeRows : List OpcodeRow :=
  [ ⟨"NOP", 0x00000000#32, 0xFFFFFFFF#32⟩,
    ⟨"MINIT", 0x00000001#32, 0xFFFFFFFF#32⟩,
    ⟨"MONTMUL", 0x00000002#32, 0xFFFF00FF#32⟩,
    ⟨"MODMUL", 0x00000003#32, 0xFFFF00FF#32⟩,
    ⟨"MODEXP", 0x00000004#32, 0xFFFFF0FF#32⟩,
    ⟨"HASH", 0x00000010#32, 0xFFFFF0FF#32⟩,
    ⟨"MGF1", 0x00000011#32, 0x0000FFFF#32⟩,
    ⟨"OAEPENC", 0x00000020#32, 0xFFFFFFFF#32⟩,
    ⟨"OAEPDEC", 0x00000021#32, 0xFFFFF0FF#32⟩ ]

/-- The row a command belongs to (30_encoding.md R95). -/
def Instr.row : Instr → OpcodeRow
  | .nop => ⟨"NOP", 0x00000000#32, 0xFFFFFFFF#32⟩
  | .minit => ⟨"MINIT", 0x00000001#32, 0xFFFFFFFF#32⟩
  | .montmul _ _ => ⟨"MONTMUL", 0x00000002#32, 0xFFFF00FF#32⟩
  | .modmul _ _ => ⟨"MODMUL", 0x00000003#32, 0xFFFF00FF#32⟩
  | .modexp _ => ⟨"MODEXP", 0x00000004#32, 0xFFFFF0FF#32⟩
  | .hash _ => ⟨"HASH", 0x00000010#32, 0xFFFFF0FF#32⟩
  | .mgf1 _ => ⟨"MGF1", 0x00000011#32, 0x0000FFFF#32⟩
  | .oaepenc => ⟨"OAEPENC", 0x00000020#32, 0xFFFFFFFF#32⟩
  | .oaepdec _ => ⟨"OAEPDEC", 0x00000021#32, 0xFFFFF0FF#32⟩

/-- The command with its operands taken from a word's fields (30_encoding.md R91, R92). -/
def Instr.withFields (i : Instr) (w : Word) : Instr :=
  match i with
  | .nop => .nop
  | .minit => .minit
  | .montmul _ _ => .montmul (saField w) (sbField w)
  | .modmul _ _ => .modmul (saField w) (sbField w)
  | .modexp _ => .modexp (saField w)
  | .hash _ => .hash (saField w)
  | .mgf1 _ => .mgf1 (immField w)
  | .oaepenc => .oaepenc
  | .oaepdec _ => .oaepdec (saField w)

/-- The instruction read from the `nbits` low bits of `w`. A command is one 32-bit word written whole through the
port, so no byte order enters (30_encoding.md R90, 20_memory.md R64(c)). -/
def decodeTableWord (nbits w : Nat) : Option Instr :=
  if w % 2 ^ nbits < 2 ^ 32 then (decode (BitVec.ofNat 32 (w % 2 ^ nbits))).toOption else none

end Sys2Proof
end

