-- ==== Sys2Proof/Machine/Oaep.lean ====
section
/-! DEFINITION. The OAEP unit: the encoder and decoder functions (43_oaep.md R180, R181, R183) and the commands OAEPENC
(R182) and OAEPDEC (R184), with the request line of the entropy port (10_state.md R50). -/

namespace Sys2Proof.Machine

/-! ### Encoding and decoding -/

/-- `DB = lHash ‖ PS ‖ 0x01 ‖ M` (43_oaep.md R180, R181). -/
def oaepDataBlock (msg : List Byte) (k : Nat) (label : List Byte) : List Byte :=
  sha256 label ++ zeroBytes (k - msg.length - 2 * Config.hLen - 2) ++ [0x01#8] ++ msg

/-- `OaepEncode(M, k, label, seed)` (43_oaep.md R181). -/
def oaepEncode (msg : List Byte) (k : Nat) (label seed : List Byte) : List Byte :=
  let maskedDB := xorBytes (oaepDataBlock msg k label) (mgf1Mask seed (k - Config.hLen - 1))
  let maskedSeed := xorBytes seed (mgf1Mask maskedDB Config.hLen)
  [0x00#8] ++ maskedSeed ++ maskedDB

/-- What decoding gives: a message, or a failure with its sub-code (43_oaep.md R183, 60_exceptions.md R222). -/
inductive OaepResult where
  | msg (bytes : List Byte)
  | fail (sub : BitVec 8)
  deriving DecidableEq, Repr

/-- The scan for the separator over `DB[h:]` (43_oaep.md R183): what follows the first 0x01, sub-code 3 for another
non-zero byte before it, 4 when the end is reached. -/
def separatorScan : List Byte → OaepResult
  | [] => .fail 4#8
  | b :: rest =>
    if b = 0x01#8 then .msg rest
    else if b ≠ 0x00#8 then .fail 3#8
    else separatorScan rest

/-- The last check, on the leading byte `Y` (43_oaep.md R183, R185). -/
def checkLeading (y : Byte) : OaepResult → OaepResult
  | .msg m => if y ≠ 0x00#8 then .fail 5#8 else .msg m
  | .fail sub => .fail sub

/-- The unmasked `DB` of a block (43_oaep.md R183). -/
def oaepUnmask (em : List Byte) (k : Nat) : List Byte :=
  let maskedSeed := slice em 1 (1 + Config.hLen)
  let maskedDB := slice em (1 + Config.hLen) k
  let seed := xorBytes maskedSeed (mgf1Mask maskedDB Config.hLen)
  xorBytes maskedDB (mgf1Mask seed (k - Config.hLen - 1))

/-- `OaepDecode(EM, k, label)` (43_oaep.md R183), checks in the order of R185. -/
def oaepDecode (em : List Byte) (k : Nat) (label : List Byte) : OaepResult :=
  if k < 2 * Config.hLen + 2 then .fail 1#8
  else
    let db := oaepUnmask em k
    if db.take Config.hLen ≠ sha256 label then .fail 2#8
    else checkLeading (em.headD 0x00#8) (separatorScan (db.drop Config.hLen))

/-! ### Commands -/

/-- The seed of OAEPENC and the state after its draw (43_oaep.md R186): `SEED[0:32]` when `SEEDSEL_L = 1`, else
`RngDraw(32)`, which is then also left in SEED (10_state.md R44). -/
def State.oaepSeed (s : State) : Option (List Byte × State) :=
  if s.seedSelL then some (s.buf .seed Config.hLen, s)
  else (s.rngDraw Config.hLen).map fun d => (d.1, d.2.setBuf .seed d.1)

/-- The first check of OAEPENC and OAEPDEC, `E_PARAM` (43_oaep.md R182, R184). -/
def State.oaepLengthsBad (s : State) : Bool :=
  decide (s.config.kmax < s.k) || decide (s.config.lmax < s.llen.toNat)

/-- The second check of OAEPENC, `E_MSGLEN`: `MLEN + 2h + 2 > KLEN` (43_oaep.md R182). -/
def State.messageTooLong (s : State) : Bool := decide (s.k < s.mlen.toNat + 2 * Config.hLen + 2)

/-- `Exec(OAEPENC)` (43_oaep.md R182). -/
def oaepenc (s : State) : CmdResult :=
  if s.oaepLengthsBad then .err .param 0#8
  else if s.messageTooLong then .err .msglen 0#8
  else
    match s.oaepSeed with
    | none => .pending
    | some (seed, t) => .ok (t.setBuf .abuf (oaepEncode s.message s.k s.label seed))

/-- `OAEPENC` (43_oaep.md R182). -/
def execOaepenc (s : State) : Host.Outcome State Fault Refusal := complete s (oaepenc s)

/-- `Exec(OAEPDEC(sa))` for the block in buffer `b` (43_oaep.md R184). -/
def oaepdec (b : Buf) (s : State) : CmdResult :=
  if s.oaepLengthsBad then .err .param 0#8
  else
    match oaepDecode (s.buf b s.k) s.k s.label with
    | .fail sub => .err .decode sub
    | .msg m => .ok { s.setBuf .mbuf m with mlen := BitVec.ofNat 16 m.length }

/-- `OAEPDEC sa` (43_oaep.md R184). -/
def execOaepdec (sa : Selector) (s : State) : Host.Outcome State Fault Refusal :=
  complete s <|
    match operandBuf sa with
    | some b => oaepdec b s
    | none => illegalCommand

/-- The output `rng_req` (10_state.md R50): the running command is an OAEPENC that passes its checks with
`SEEDSEL_L = 0` (R45), so that the engine wants entropy bytes. -/
def State.rngReq (s : State) : Bool :=
  s.busy && decide (decode s.cmdreg = .instr .oaepenc) && !s.seedSelL && !s.oaepLengthsBad && !s.messageTooLong

end Sys2Proof.Machine
end

