-- ==== Sys2Proof/Machine/Dispatch.lean ====
section
/-! DEFINITION. The completion step of each command (30_encoding.md R95, 40_command_execution.md R113): one arm per
constructor. -/

namespace Sys2Proof.Machine

def exec (i : Instr) (s : State) : Host.Outcome State Fault Refusal :=
  match i with
  | .nop => Sys2Proof.Machine.execNop s
  | .minit => Sys2Proof.Machine.execMinit s
  | .montmul sa sb => Sys2Proof.Machine.execMontmul sa sb s
  | .modmul sa sb => Sys2Proof.Machine.execModmul sa sb s
  | .modexp sa => Sys2Proof.Machine.execModexp sa s
  | .hash sa => Sys2Proof.Machine.execHash sa s
  | .mgf1 len => Sys2Proof.Machine.execMgf1 len s
  | .oaepenc => Sys2Proof.Machine.execOaepenc s
  | .oaepdec sa => Sys2Proof.Machine.execOaepdec sa s

end Sys2Proof.Machine
end

