-- ==== Sys2Proof/Machine/Port.lean ====
section
/-! DEFINITION. The host port: the address map (20_memory.md R61), reads and writes (R62, R63), unmapped addresses (R66)
and the lock (R67). -/

namespace Sys2Proof.Machine

/-- The control registers (10_state.md R23-R36). -/
inductive Reg where
  | id | cap | ctrl | status | errinfo | cmd | klen | mlen | llen | n0inv
  deriving DecidableEq, Repr

/-- Where a word address leads (20_memory.md R61). -/
inductive Place where
  /-- A register of the control region. -/
  | reg (r : Reg)
  /-- 0x0028-0x003F. -/
  | unmappedControl
  /-- The word at byte offset `off` of buffer `b`. -/
  | buffer (b : Buf) (off : Nat)
  /-- 0x0080-0x03FF, or beyond a buffer's size in its window. -/
  | unmappedData
  deriving DecidableEq, Repr

/-- Byte address of a word address (10_state.md R50). -/
def byteAddr (a : WordAddr) : Nat := 4 * a.toNat

/-- The control region, 0x0000-0x003F, by byte address (20_memory.md R61). -/
def placeControl (a : Nat) : Place :=
  if a = 0x00 then .reg .id
  else if a = 0x04 then .reg .cap
  else if a = 0x08 then .reg .ctrl
  else if a = 0x0C then .reg .status
  else if a = 0x10 then .reg .errinfo
  else if a = 0x14 then .reg .cmd
  else if a = 0x18 then .reg .klen
  else if a = 0x1C then .reg .mlen
  else if a = 0x20 then .reg .llen
  else if a = 0x24 then .reg .n0inv
  else .unmappedControl

/-- The word of buffer `b` at byte address `a`, unmapped when its offset is at or beyond the buffer's size
(20_memory.md R61, R66). -/
def placeBuffer (c : Config) (b : Buf) (a : Nat) : Place :=
  if a - b.base < b.size c then .buffer b (a - b.base) else .unmappedData

/-- The data region, 0x0040-0x1FFF, by byte address (20_memory.md R61). -/
def placeData (c : Config) (a : Nat) : Place :=
  if a < 0x60 then placeBuffer c .seed a
  else if a < 0x80 then placeBuffer c .digest a
  else if a < 0x400 then .unmappedData
  else if a < 0x800 then placeBuffer c .nbuf a
  else if a < 0xC00 then placeBuffer c .ebuf a
  else if a < 0x1000 then placeBuffer c .abuf a
  else if a < 0x1400 then placeBuffer c .bbuf a
  else if a < 0x1800 then placeBuffer c .rbuf a
  else if a < 0x1C00 then placeBuffer c .mbuf a
  else placeBuffer c .lbuf a

/-- The address map (20_memory.md R61). -/
def place (c : Config) (a : WordAddr) : Place :=
  if byteAddr a < 0x40 then placeControl (byteAddr a) else placeData c (byteAddr a)

/-- The read value of a register (10_state.md R23-R37). CMD reads 0 (R32). -/
def State.regRead (s : State) : Reg → Word
  | .id => Config.mmeeId
  | .cap => s.capWord
  | .ctrl => s.ctrlWord
  | .status => s.statusWord
  | .errinfo => s.errinfoWord
  | .cmd => 0#32
  | .klen => s.klen.setWidth 32
  | .mlen => s.mlen.setWidth 32
  | .llen => s.llen.setWidth 32
  | .n0inv => s.n0inv

/-- A read of the data region at a place: 0 and a lock violation while BUSY = 1 (20_memory.md R62, R67). -/
def State.dataRead (s : State) (value : Word) : State :=
  if s.busy then { s.lockViolation with rdata := 0#32 } else { s with rdata := value }

/-- `MemRead(addr, 4)` (20_memory.md R62); the word returned is left in `rdata`. -/
def hostRead (a : WordAddr) (s : State) : State :=
  match place s.config a with
  | .reg r => { s with rdata := s.regRead r }
  | .unmappedControl => { s with rdata := 0#32 }
  | .unmappedData => s.dataRead 0#32
  | .buffer b off => s.dataRead (s.mem.readWord (b.base + off))

/-- A write that the lock drops while BUSY = 1, and that is `f` otherwise (20_memory.md R63, R67). -/
def State.lockedWrite (s : State) (f : State → State) : State := if s.busy then s.lockViolation else f s

/-- A write to a register (10_state.md R25-R37, 20_memory.md R63). -/
def State.regWrite (s : State) (v : Word) : Reg → State
  | .id | .cap | .errinfo | .n0inv => s
  | .ctrl => s.writeCtrl v
  | .status => s.clearStatus v
  | .cmd => s.lockedWrite fun s => s.accept v
  | .klen => s.lockedWrite fun s => { s with klen := v.extractLsb' 0 16, keyok := false }
  | .mlen => s.lockedWrite fun s => { s with mlen := v.extractLsb' 0 16 }
  | .llen => s.lockedWrite fun s => { s with llen := v.extractLsb' 0 16 }

/-- The four bytes of a word to the port address `addr` of a buffer (20_memory.md R63, R64). -/
def State.writeWord (s : State) (addr : Nat) (v : Word) : State :=
  { s with mem := s.mem.writeBytes addr (bytesOfWord v) }

/-- An accepted write to a word of a buffer: DIGEST ignores it, NBUF clears KEYOK (20_memory.md R63, 10_state.md R29,
R37). -/
def State.bufWrite (s : State) (b : Buf) (off : Nat) (v : Word) : State :=
  match b with
  | .digest => s
  | .nbuf => (s.writeWord (Buf.nbuf.base + off) v).clearKeyok
  | b => s.writeWord (b.base + off) v

/-- `MemWrite(addr, 4, v)` (20_memory.md R63). -/
def hostWrite (a : WordAddr) (v : Word) (s : State) : State :=
  match place s.config a with
  | .reg r => s.regWrite v r
  | .unmappedControl => s
  | .unmappedData => s.lockedWrite fun s => s
  | .buffer b off => s.lockedWrite fun s => s.bufWrite b off v

/-- The output `ready` (10_state.md R50): the block answers every transaction at once, locked or not. -/
def State.ready (_ : State) : Bool := true

/-- `rst_n` asserted and released: the reset state of 10_state.md R51, with `contents` in the large buffers
(70_reset_and_hazards.md R250, R253). What lies outside the block stays: the parameters, the entropy port's answers,
the host's last read word and what the outside does next (notes/assumptions/7.md). -/
def resetPin (contents : List Host.Cell) (s : State) : State :=
  { State.resetWith s.config (Memory.afterReset s.config contents) with
    rdata := s.rdata, entropy := s.entropy, inputs := s.inputs }

end Sys2Proof.Machine
end

