-- ==== Sys2Proof/Machine/Engine.lean ====
section
/-! DEFINITION. The agents' turns: the engine's completion step (40_command_execution.md R112) and what each input does
(00_scope.md R13, 20_memory.md R70). -/

namespace Sys2Proof.Machine

/-- `Exec(CMDREG)` as a completion step: the latched word is decoded here and not at the CMD write (30_encoding.md
R96, 40_command_execution.md R113). -/
def completionStep (s : State) : Host.Outcome State Fault Refusal :=
  match decode s.cmdreg with
  | .instr i => exec i s
  | .illegal _ => execIllegal s

/-- The engine's turn: a completion step when BUSY = 1, no step otherwise (00_scope.md R13). -/
def engineTurn (s : State) : Host.Outcome State Fault Refusal :=
  if s.busy then completionStep s else .next s

/-- One atomic step of the outside or of the engine (20_memory.md R70). -/
def applyInput (i : Input) (s : State) : Host.Outcome State Fault Refusal :=
  match i with
  | .read a => .next (hostRead a s)
  | .write a v => .next (hostWrite a v s)
  | .engine => engineTurn s
  | .reset contents => .next (resetPin contents s)

/-- The next turn and the state without it. When nothing is listed any more, the engine has its turn: a busy engine
eventually completes (70_reset_and_hazards.md R261). -/
def nextTurn (s : State) : Input × State :=
  match s.inputs with
  | [] => (.engine, s)
  | i :: rest => (i, { s with inputs := rest })

/-- `s` with command word `w` accepted and the engine's turn next: what a CMD write of `w` leaves (40_command_execution.md
R110). -/
def State.withCommand (s : State) (w : Word) : State :=
  { s.accept w with inputs := Input.engine :: s.inputs }

end Sys2Proof.Machine
end

