-- ==== Sys2Proof/Machine/Step.lean ====
section
/-! DEFINITION. One step of the machine (00_scope.md R13, 20_memory.md R70). -/

namespace Sys2Proof.Machine

/-- One step: the agent whose turn it is moves. -/
def step (s : State) : Host.Outcome State Fault Refusal :=
  applyInput (nextTurn s).1 (nextTurn s).2

/-- `s` with the instruction whose bits are `w` in CMDREG, accepted, and the engine's turn next. The block fetches
nothing (00_scope.md R2): its "fetch" is the read of CMDREG in the completion step (40_command_execution.md R112),
and a word gets there by the acceptance of a CMD write (R110; notes/assumptions/9.md). -/
def State.withFetchWord (s : State) (nbits w : Nat) : State :=
  s.withCommand (BitVec.ofNat 32 (w % 2 ^ nbits))

end Sys2Proof.Machine
end

