-- ==== Sys2Proof/Safety.lean ====
section
/-! DEFINITION. What holds of every state the block can be in, in the terms the statements use: the invariant of the
spec's own words (10_state.md R28, R29, R31; 41_montgomery.md R130), the states a run reaches, and two relations on
states for the lock and for the host's view. -/

namespace Sys2Proof.Machine

/-- What KEYOK = 1 promises (10_state.md R29, 41_montgomery.md R130). -/
structure State.KeyConstants (s : State) : Prop where
  klen_pos : 1 ≤ s.k
  klen_le : s.k ≤ s.config.kmax
  modulus_odd : s.modulus % 2 = 1
  three_le_modulus : 3 ≤ s.modulus
  leading_byte : s.mem.read Buf.nbuf.base ≠ 0#8
  n0inv_eq : (s.modulus * s.n0inv.toNat + 1) % 2 ^ 32 = 0
  rr_eq : s.rr = radix s.k * radix s.k % s.modulus

/-- The invariant of the block. -/
structure State.Inv (s : State) : Prop where
  /-- The parameters are legal (00_scope.md R6). -/
  config_wf : s.config.wf = true
  /-- Memory keeps its canonical form. -/
  mem_wf : s.mem.wf = true
  /-- Memory lists bytes of buffers only (20_memory.md R61, R66). -/
  mem_mapped : ∀ c ∈ s.mem, mappedByte s.config c.1 = true
  /-- DONE and ERR are never both 1 (10_state.md R28). -/
  one_flag : ¬(s.done = true ∧ s.err = true)
  /-- Between acceptance and completion DONE, ERR and ERRINFO are 0 (40_command_execution.md R110, R111). -/
  busy_clean : s.busy = true → s.done = false ∧ s.err = false ∧ s.errCode = 0#8 ∧ s.errSub = 0#8
  /-- A successful completion leaves ERRINFO 0 (10_state.md R31). -/
  done_clean : s.done = true → s.errCode = 0#8 ∧ s.errSub = 0#8
  /-- ERR = 1 comes with a code (10_state.md R28). -/
  err_code : s.err = true → s.errCode ≠ 0#8
  /-- Codes 8-255 are never written (60_exceptions.md R221). -/
  code_known : s.errCode.toNat ≤ 7
  /-- Only E_DECODE has a sub-code, 1 to 5 (60_exceptions.md R222). -/
  sub_known : s.errSub.toNat ≤ 5 ∧ (s.errSub ≠ 0#8 ↔ s.errCode = ErrCode.decode.number)
  /-- RR is below 2^(8·KMAX) (10_state.md R20). -/
  rr_lt : s.rr < 2 ^ (8 * s.config.kmax)
  /-- KEYOK = 1 means that N0INV and RR are the constants of the present modulus (10_state.md R29). -/
  key : s.keyok = true → s.KeyConstants

/-- The states a run reaches: any legal parameters, any contents of the large buffers at reset, any turns and any
answers of the entropy port, and the step (70_reset_and_hazards.md R250, R260). -/
inductive Reachable : State → Prop where
  | start (c : Config) (contents : List Host.Cell) (entropy : List Byte) (inputs : List Input) (hc : c.wf = true) :
      Reachable { State.resetWith c (Memory.afterReset c contents) with entropy := entropy, inputs := inputs }
  | step {s t : State} (hs : Reachable s) (h : Sys2Proof.Machine.step s = .next t) : Reachable t

/-- An input is a host transaction, a read or a write (20_memory.md R62, R63). -/
def Input.isTransaction : Input → Bool
  | .read _ | .write _ _ => true
  | .engine | .reset _ => false

/-- `s` and `t` agree on all a running command reads or writes: everything but CTRL, LOCKV, DONE, ERR, the last read
word and the list of inputs (20_memory.md R67(a)). DONE and ERR are 0 throughout a command. -/
structure SameForCommand (s t : State) : Prop where
  config : s.config = t.config
  busy : s.busy = t.busy
  keyok : s.keyok = t.keyok
  errCode : s.errCode = t.errCode
  errSub : s.errSub = t.errSub
  klen : s.klen = t.klen
  mlen : s.mlen = t.mlen
  llen : s.llen = t.llen
  n0inv : s.n0inv = t.n0inv
  mem : s.mem = t.mem
  cmdreg : s.cmdreg = t.cmdreg
  seedSelL : s.seedSelL = t.seedSelL
  rr : s.rr = t.rr
  entropy : s.entropy = t.entropy

/-- A command's successful end, over its writes (40_command_execution.md R112). -/
def State.finished (s : State) : State := { s with done := true, busy := false }

/-- A command's end with error code `code` and sub-code `sub`, as numbers (60_exceptions.md R221, R222, R224). -/
def State.failed (s : State) (code sub : BitVec 8) : State :=
  { s with errCode := code, errSub := sub, err := true, busy := false }

/-- The operand selectors and the buffers they name (30_encoding.md R94). -/
def operandSelectors : List (Selector × Buf) := [(0#4, .abuf), (1#4, .bbuf), (2#4, .rbuf)]

/-- `s` and `t` differ at most in memory, the sequencer, the completion flags and ERRINFO. -/
def State.onlyMemAndReport (s t : State) : Prop :=
  t = { s with
    mem := t.mem, busy := t.busy, done := t.done, err := t.err, errCode := t.errCode, errSub := t.errSub }

/-- All of a state but the sequencer, the completion flags and ERRINFO (60_exceptions.md R225). -/
def State.withoutReport (s : State) : State :=
  { s with busy := false, done := false, err := false, errCode := 0#8, errSub := 0#8 }

end Sys2Proof.Machine
end

