-- ==== Sys2Proof/Certificates/Slice0/Obligations.lean ====
section
/-! DEFINITION. What is claimed of the model, one proposition per numbered rule or group of rules of the spec. Each
docstring names the rule; a docstring that says DESIGN CHOICE or DEDUCED names a clause that is the model's and not the
spec's. -/

open Sys2Proof Sys2Proof.Machine

/-! ### Encoding -/

/-- 30_encoding.md R91, R92, R95, R96: decoding the word of a well-formed command gives the command back. -/
def Obligations.DecodeEncodeRoundTrip : Prop :=
  ∀ i : Instr, i.WellFormed → decode (encode i) = .instr i

/-- 30_encoding.md R92, R96: a word that decodes is the word of a well-formed command, so each legal word has one
meaning and each command one word. -/
def Obligations.DecodedWordReencodes : Prop :=
  ∀ (w : Word) (i : Instr), decode w = .instr i → i.WellFormed ∧ encode i = w

/-- 30_encoding.md R95: a word decodes to a command exactly when it is a candidate for the command's row, its selectors
are in the row's subset, and the command's operands are the word's fields. -/
def Obligations.DecodeIsTheOpcodeMap : Prop :=
  ∀ (w : Word) (i : Instr),
    decode w = .instr i ↔ i.row ∈ opcodeRows ∧ i.row.candidate w = true ∧ i.WellFormed ∧ i = i.withFields w

/-- 30_encoding.md R95, R96: no word is a candidate for two rows of the opcode map. -/
def Obligations.OpcodeRowsDisjoint : Prop :=
  ∀ (w : Word), ∀ r ∈ opcodeRows, ∀ r' ∈ opcodeRows, r.candidate w = true → r'.candidate w = true → r = r'

/-- 30_encoding.md R97: every word that is not the word of a well-formed command ends with E_OPCODE (code 1) and changes
no other state; and the only word that executes as NOP is 0x00000000. -/
def Obligations.IllegalWordEndsInOpcodeError : Prop :=
  (∀ s : State, s.busy = true → (∀ i : Instr, i.WellFormed → encode i ≠ s.cmdreg) →
      engineTurn s = .next (s.failed 1#8 0#8)) ∧
    ∀ w : Word, decode w = .instr .nop ↔ w = 0x00000000#32

/-- 30_encoding.md R98: the words of the examples, with one word for every row of the opcode map. -/
def Obligations.ExampleWordsDecode : Prop :=
  decode 0x00000000#32 = .instr .nop ∧
  decode 0x00000001#32 = .instr .minit ∧
  decode 0x00001002#32 = .instr (.montmul 0#4 1#4) ∧
  decode 0x00002203#32 = .instr (.modmul 2#4 2#4) ∧
  decode 0x00000204#32 = .instr (.modexp 2#4) ∧
  decode 0x00000310#32 = .instr (.hash 3#4) ∧
  decode 0x00000410#32 = .instr (.hash 4#4) ∧
  decode 0x00210011#32 = .instr (.mgf1 33#16) ∧
  decode 0x00000020#32 = .instr .oaepenc ∧
  decode 0x00000221#32 = .instr (.oaepdec 2#4)

/-! ### The step -/

/-- 40_command_execution.md R112, R113: in the engine's turn a busy block runs the command that CMDREG decodes to. The
turn is the engine's when the list of inputs says so, and when it is empty (the model's order of agents,
notes/assumptions/1.md). -/
def Obligations.StepRunsDecodedCommand : Prop :=
  ∀ (s : State) (i : Instr), s.busy = true → decode s.cmdreg = .instr i →
    (∀ rest, s.inputs = Input.engine :: rest → step s = exec i { s with inputs := rest }) ∧
    (s.inputs = [] → step s = exec i s)

/-- 40_command_execution.md R110, R112: the step from `withFetchWord` runs the command its word decodes to, as accepted.
That the word is placed so is the model's (notes/assumptions/9.md). -/
def Obligations.StepRunsPlacedWord : Prop :=
  ∀ (s : State) (nbits w : Nat) (i : Instr), decodeTableWord nbits w = some i →
    step (s.withFetchWord nbits w) = exec i (s.accept (BitVec.ofNat 32 (w % 2 ^ nbits)))

/-- Each turn is one atomic step, in the order of the list: the transactions of 20_memory.md R70, the engine's completion
step, none of an idle engine (00_scope.md R13), and reset, a step that may be taken at any time
(70_reset_and_hazards.md R250). The entropy source takes no step (R13): a turn leaves the port's answers as they are,
but for a completion step of OAEPENC with SEEDSEL_L = 0, which draws exactly 32 bytes (10_state.md R45). The model's own:
the order of turns as a list, with the idle engine's turn an unchanged state (DESIGN CHOICE, notes/assumptions/1.md);
the port's answers as a list of bytes (DESIGN CHOICE, notes/assumptions/2.md); and what a reset leaves outside the block
(DESIGN CHOICE, notes/assumptions/7.md). -/
def Obligations.StepTakesTurnsInOrder : Prop :=
  ∀ (s : State) (rest : List Input),
    (∀ a, s.inputs = .read a :: rest → step s = .next (hostRead a { s with inputs := rest })) ∧
    (∀ a v, s.inputs = .write a v :: rest → step s = .next (hostWrite a v { s with inputs := rest })) ∧
    (∀ contents, s.inputs = .reset contents :: rest → step s = .next (resetPin contents { s with inputs := rest })) ∧
    (s.inputs = .engine :: rest → step s = engineTurn { s with inputs := rest }) ∧
    (s.busy = false → s.inputs = .engine :: rest → step s = .next { s with inputs := rest }) ∧
    (s.inputs = [] → step s = engineTurn s) ∧
    (s.busy = false → s.inputs = [] → step s = .next s) ∧
    (∀ t, step s = .next t → t.entropy ≠ s.entropy →
      (s.inputs = [] ∨ ∃ rest', s.inputs = .engine :: rest') ∧ s.busy = true ∧ decode s.cmdreg = .instr .oaepenc ∧
        s.seedSelL = false ∧ t.done = true ∧ ∃ seed, seed.length = 32 ∧ s.entropy = seed ++ t.entropy)

/-- Every step of every state answers a next state. A command error is one, since the block has no traps
(60_exceptions.md R220) and error entry returns it to IDLE (R224). The model's own: that nothing else stops it, Fault
having no constructor (DEDUCED, notes/assumptions/8.md); that a waiting OAEPENC is an unchanged next state (DESIGN CHOICE,
notes/assumptions/2.md), where 93_implementation_defined.md U5 says stuck; and that an idle engine's turn is an unchanged
next state (DESIGN CHOICE, notes/assumptions/1.md). -/
def Obligations.StepAlwaysContinues : Prop :=
  ∀ s : State, ∃ t, step s = .next t

/-- 40_command_execution.md R110: a CMD write while idle does exactly this, for any word; while busy it is dropped and
sets LOCKV. -/
def Obligations.CommandAcceptance : Prop :=
  ∀ (s : State) (a : WordAddr) (w : Word), byteAddr a = 0x14 →
    (s.busy = false → hostWrite a w s =
      { s with cmdreg := w, seedSelL := s.seedSel, busy := true, done := false, err := false, errCode := 0#8,
               errSub := 0#8 }) ∧
    (s.busy = true → hostWrite a w s = { s with lockv := true })

/-- 40_command_execution.md R112, 10_state.md R28: after the completion step BUSY is 0 and exactly one of DONE, ERR is 1.
The step has not happened only while an OAEPENC waits for the entropy port (70_reset_and_hazards.md R261). The premises
on DONE and ERR hold of every state with BUSY = 1 that the block can be in. -/
def Obligations.CompletionClearsBusyAndSetsOneFlag : Prop :=
  ∀ s t : State, s.busy = true → s.done = false → s.err = false → engineTurn s = .next t →
    (t.busy = false ∧ t.done = !t.err) ∨
    (t = s ∧ decode s.cmdreg = .instr .oaepenc ∧ s.seedSelL = false ∧ s.entropy.length < 32)

/-- 60_exceptions.md R225: a command that ends with ERR has changed nothing but BUSY, DONE, ERR and ERRINFO; no entropy
was drawn. -/
def Obligations.FailedCommandChangesOnlyReport : Prop :=
  ∀ s t : State, s.err = false → completionStep s = .next t → t.err = true → t.withoutReport = s.withoutReport

/-- The reports each well-formed command can end with (60_exceptions.md R221, R222, R226). -/
def errorReports : Instr → List (BitVec 8 × BitVec 8)
  | .nop => []
  | .minit => [(2#8, 0#8), (4#8, 0#8)]
  | .montmul _ _ => [(3#8, 0#8), (5#8, 0#8)]
  | .modmul _ _ => [(3#8, 0#8)]
  | .modexp _ => [(3#8, 0#8)]
  | .hash _ => [(2#8, 0#8)]
  | .mgf1 _ => [(2#8, 0#8)]
  | .oaepenc => [(2#8, 0#8), (6#8, 0#8)]
  | .oaepdec _ => [(2#8, 0#8), (7#8, 1#8), (7#8, 2#8), (7#8, 3#8), (7#8, 4#8), (7#8, 5#8)]

/-- 60_exceptions.md R221, R222, R226: which codes and sub-codes each command can report. -/
def Obligations.ErrorReportsOfCommands : Prop :=
  ∀ (i : Instr) (s t : State), i.WellFormed → s.err = false → exec i s = .next t → t.err = true →
    (t.errCode, t.errSub) ∈ errorReports i

/-- 60_exceptions.md R224: error entry writes ERRINFO, sets ERR, clears BUSY and nothing else; DONE stays, and `irq`
rises if IE_ERR = 1. -/
def Obligations.ErrorEntry : Prop :=
  ∀ (s : State) (code : ErrCode) (sub : BitVec 8),
    complete s (.err code sub) =
      .next { s with errCode := code.number, errSub := sub, err := true, busy := false } ∧
    (s.done = false → (s.raiseError code sub).irq = s.ieErr)

/-! ### NOP and the Montgomery unit -/

/-- 40_command_execution.md R115: word 0x00000000 is NOP, which sets DONE and reads or writes nothing else; a word with
opcode 0x00 and a non-zero upper bit is illegal and ends with E_OPCODE (1); from reset, whatever the parameters and the contents of
the large buffers, a CMD write of 0 and the completion step give STATUS = 2, ERRINFO = 0. -/
def Obligations.NopCompletes : Prop :=
  decode 0x00000000#32 = .instr .nop ∧
  (∀ s : State, exec .nop s = .next s.finished) ∧
  (∀ s : State, s.busy = true → opcodeField s.cmdreg = 0x00#8 → s.cmdreg ≠ 0#32 →
    engineTurn s = .next (s.failed 1#8 0#8)) ∧
  (∀ (c : Config) (contents : Memory), ∃ t, engineTurn (hostWrite 5#11 0#32 (State.resetWith c contents)) = .next t ∧
    t.statusWord = 0x00000002#32 ∧ t.errinfoWord = 0#32)

/-- 41_montgomery.md R133: on a legal modulus MINIT writes N0INV, RR and KEYOK and completes. -/
def Obligations.MinitComputesConstants : Prop :=
  ∀ s : State, 1 ≤ s.k → s.k ≤ s.config.kmax → s.mem.read 0x0400 ≠ 0#8 → s.modulus % 2 = 1 → 3 ≤ s.modulus →
    ∃ x : Word, (s.modulus * x.toNat + 1) % 2 ^ 32 = 0 ∧
      exec .minit s = .next
        { s with n0inv := x, rr := radix s.k * radix s.k % s.modulus, keyok := true, done := true, busy := false }

/-- 41_montgomery.md R133, 60_exceptions.md R226: when MINIT ends with E_PARAM (2) and when with E_MODULUS (4). -/
def Obligations.MinitRejectsModulus : Prop :=
  ∀ s : State,
    (s.k = 0 ∨ s.config.kmax < s.k → exec .minit s = .next (s.failed 2#8 0#8)) ∧
    (1 ≤ s.k → s.k ≤ s.config.kmax → s.mem.read 0x0400 = 0#8 ∨ s.modulus % 2 = 0 ∨ s.modulus < 3 →
      exec .minit s = .next (s.failed 4#8 0#8))

/-- 41_montgomery.md R131, R134, R139: with a key and operands below `n`, MONTMUL leaves in RBUF[0:k] the `v` below `n`
with `Rm·v ≡ a·b (mod n)`, and completes. -/
def Obligations.MontmulResult : Prop :=
  ∀ (s : State) (sa sb : Selector) (a b : Buf), (sa, a) ∈ operandSelectors → (sb, b) ∈ operandSelectors →
    s.keyok = true → s.modulus % 2 = 1 → 3 ≤ s.modulus → s.operand a < s.modulus → s.operand b < s.modulus →
    ∃ v, v < s.modulus ∧ radix s.k * v % s.modulus = s.operand a * s.operand b % s.modulus ∧
      exec (.montmul sa sb) s = .next { s with
        mem := s.mem.writeBytes 0x1400 (beBytes v s.k), done := true, busy := false }

/-- 41_montgomery.md R135, R139: with a key MODMUL leaves `(a·b) mod n` in RBUF[0:k] and completes, for any operands. -/
def Obligations.ModmulResult : Prop :=
  ∀ (s : State) (sa sb : Selector) (a b : Buf), (sa, a) ∈ operandSelectors → (sb, b) ∈ operandSelectors →
    s.keyok = true →
    exec (.modmul sa sb) s = .next { s with
      mem := s.mem.writeBytes 0x1400 (beBytes (s.operand a * s.operand b % s.modulus) s.k), done := true, busy := false }

/-- 41_montgomery.md R136, R139: with a key MODEXP leaves `(a^e) mod n` in RBUF[0:k] and completes, for any base and any
exponent, `0^0` being 1. -/
def Obligations.ModexpResult : Prop :=
  ∀ (s : State) (sa : Selector) (a : Buf), (sa, a) ∈ operandSelectors → s.keyok = true →
    exec (.modexp sa) s = .next { s with
      mem := s.mem.writeBytes 0x1400 (beBytes (s.operand a ^ s.exponent % s.modulus) s.k), done := true, busy := false }

/-- 41_montgomery.md R134, 60_exceptions.md R221, R226: without a key MONTMUL, MODMUL and MODEXP end with E_NOKEY (3),
whatever the operands; with one, an operand not below `n` ends MONTMUL with E_RANGE (5). -/
def Obligations.KeyedCommandErrors : Prop :=
  ∀ (s : State) (sa sb : Selector) (a b : Buf), (sa, a) ∈ operandSelectors → (sb, b) ∈ operandSelectors →
    (s.keyok = false →
      exec (.montmul sa sb) s = .next (s.failed 3#8 0#8) ∧
      exec (.modmul sa sb) s = .next (s.failed 3#8 0#8) ∧
      exec (.modexp sa) s = .next (s.failed 3#8 0#8)) ∧
    (s.keyok = true → s.modulus ≤ s.operand a ∨ s.modulus ≤ s.operand b →
      exec (.montmul sa sb) s = .next (s.failed 5#8 0#8))

/-- 41_montgomery.md R131: `Rinv` exists and is the only such integer; the product is `(a·b·Rinv) mod n`, below `n`; and
the three identities. -/
def Obligations.MontgomeryProductLaws : Prop :=
  ∀ n k : Nat, n % 2 = 1 → 3 ≤ n → n < 256 ^ k →
    ∃ rinv, 1 ≤ rinv ∧ rinv < n ∧ radix k * rinv % n = 1 ∧
      (∀ r, 1 ≤ r → r < n → radix k * r % n = 1 → r = rinv) ∧
      ∀ a b,
        montMul a b n k = a * b * rinv % n ∧
        montMul a b n k < n ∧
        montMul a (radix k * radix k % n) n k = a * radix k % n ∧
        montMul a 1 n k = a * rinv % n ∧
        montMul (a * radix k % n) b n k = a * b % n

/-- 41_montgomery.md R132: under its precondition the word-serial algorithm returns the Montgomery product. -/
def Obligations.WordSerialMultiplierRefines : Prop :=
  ∀ a b n n0 k : Nat, n % 2 = 1 → 3 ≤ n → n < 256 ^ k → (n * n0 + 1) % 2 ^ 32 = 0 →
    a < radix k → b < radix k → a * b < radix k * n →
    montMulWordSerial a b n n0 k = montMul a b n k

/-- 41_montgomery.md R135, R137: the unit's two products for MODMUL and its left-to-right binary exponentiation for
MODEXP give the results of the rules. -/
def Obligations.ReferenceSequencesRefine : Prop :=
  ∀ a b e n k : Nat, n % 2 = 1 → 3 ≤ n →
    modmulSequence a b n k (radix k * radix k % n) = a * b % n ∧
    modexpSequence a e n k (radix k * radix k % n) = a ^ e % n

/-! ### The hash unit -/

/-- 42_hash_mgf1.md R164: HASH leaves the SHA-256 of the selected buffer's bytes in DIGEST and completes. -/
def Obligations.HashResult : Prop :=
  ∀ s : State,
    (s.mlen.toNat ≤ s.config.kmax → exec (.hash 3#4) s = .next { s with
      mem := s.mem.writeBytes 0x0060 (sha256 (s.mem.readBytes 0x1800 s.mlen.toNat)), done := true, busy := false }) ∧
    (s.llen.toNat ≤ s.config.lmax → exec (.hash 4#4) s = .next { s with
      mem := s.mem.writeBytes 0x0060 (sha256 (s.mem.readBytes 0x1C00 s.llen.toNat)), done := true, busy := false })

/-- 42_hash_mgf1.md R167: MGF1 leaves the mask of the seed `MBUF[0:MLEN]` in RBUF[0:L] and completes. -/
def Obligations.MaskCommandResult : Prop :=
  ∀ (s : State) (len : Half), s.mlen.toNat ≤ s.config.kmax → len.toNat ≤ s.config.kmax →
    exec (.mgf1 len) s = .next { s with
      mem := s.mem.writeBytes 0x1400 (mgf1Mask (s.mem.readBytes 0x1800 s.mlen.toNat) len.toNat),
      done := true, busy := false }

/-- 42_hash_mgf1.md R164, R167: a length beyond its buffer ends HASH and MGF1 with E_PARAM (2); HASH checks the selected
buffer's length only. -/
def Obligations.HashUnitRejectsLengths : Prop :=
  ∀ (s : State) (len : Half),
    (s.config.kmax < s.mlen.toNat → exec (.hash 3#4) s = .next (s.failed 2#8 0#8)) ∧
    (s.config.lmax < s.llen.toNat → exec (.hash 4#4) s = .next (s.failed 2#8 0#8)) ∧
    (s.config.kmax < s.mlen.toNat ∨ s.config.kmax < len.toNat → exec (.mgf1 len) s = .next (s.failed 2#8 0#8))

/-- 42_hash_mgf1.md R166: the mask has `L` bytes, and byte `j` is byte `j mod 32` of the hash of the seed with counter
`j / 32`. -/
def Obligations.MaskIsHashOfCounterBlocks : Prop :=
  ∀ (seed : List Byte) (len : Nat),
    (mgf1Mask seed len).length = len ∧
    ∀ j, j < len → (mgf1Mask seed len)[j]? = (sha256 (seed ++ beBytes (j / 32) 4))[j % 32]?

/-! ### The OAEP unit -/

/-- 43_oaep.md R182, R186: with SEEDSEL_L = 1 OAEPENC leaves the block made with SEED in ABUF[0:k] and completes. -/
def Obligations.OaepencWithHostSeed : Prop :=
  ∀ s : State, s.k ≤ s.config.kmax → s.llen.toNat ≤ s.config.lmax → s.mlen.toNat + 66 ≤ s.k → s.seedSelL = true →
    exec .oaepenc s = .next { s with
      mem := s.mem.writeBytes 0x0C00
        (oaepEncode (s.mem.readBytes 0x1800 s.mlen.toNat) s.k (s.mem.readBytes 0x1C00 s.llen.toNat)
          (s.mem.readBytes 0x0040 32)),
      done := true, busy := false }

/-- 43_oaep.md R182, R186, 10_state.md R44, R45: with SEEDSEL_L = 0 OAEPENC draws 32 bytes, leaves them in SEED and the
block made with them in ABUF[0:k], and completes, whatever the bytes are. The model's own: that the port's answers are a list
of which the draw leaves the rest (DESIGN CHOICE), and that the first of them is SEED[0] (DEDUCED from vector V35 of
95_test_vectors.md), both notes/assumptions/2.md. -/
def Obligations.OaepencWithDrawnSeed : Prop :=
  ∀ (s : State) (seed rest : List Byte), s.k ≤ s.config.kmax → s.llen.toNat ≤ s.config.lmax → s.mlen.toNat + 66 ≤ s.k →
    s.seedSelL = false → seed.length = 32 → s.entropy = seed ++ rest →
    exec .oaepenc s = .next { s with
      mem := (s.mem.writeBytes 0x0040 seed).writeBytes 0x0C00
        (oaepEncode (s.mem.readBytes 0x1800 s.mlen.toNat) s.k (s.mem.readBytes 0x1C00 s.llen.toNat) seed),
      entropy := rest, done := true, busy := false }

/-- 43_oaep.md R182, 70_reset_and_hazards.md R261: OAEPENC ends with E_PARAM (2) before E_MSGLEN (6); while the entropy
port has not delivered 32 bytes it stays busy and nothing changes. That waiting shows as a step that leaves the state
as it is, is the model's (notes/assumptions/2.md). -/
def Obligations.OaepencRejectsAndWaits : Prop :=
  ∀ s : State,
    (s.config.kmax < s.k ∨ s.config.lmax < s.llen.toNat → exec .oaepenc s = .next (s.failed 2#8 0#8)) ∧
    (s.k ≤ s.config.kmax → s.llen.toNat ≤ s.config.lmax → s.k < s.mlen.toNat + 66 →
      exec .oaepenc s = .next (s.failed 6#8 0#8)) ∧
    (s.k ≤ s.config.kmax → s.llen.toNat ≤ s.config.lmax → s.mlen.toNat + 66 ≤ s.k → s.seedSelL = false →
      s.entropy.length < 32 → exec .oaepenc s = .next s)

/-- 43_oaep.md R184: on a valid block OAEPDEC leaves the message in MBUF and its length in MLEN and completes. -/
def Obligations.OaepdecResult : Prop :=
  ∀ (s : State) (sa : Selector) (b : Buf) (m : List Byte), (sa, b) ∈ operandSelectors →
    s.k ≤ s.config.kmax → s.llen.toNat ≤ s.config.lmax →
    oaepDecode (s.mem.readBytes b.base s.k) s.k (s.mem.readBytes 0x1C00 s.llen.toNat) = .msg m →
    exec (.oaepdec sa) s = .next { s with
      mem := s.mem.writeBytes 0x1800 m, mlen := BitVec.ofNat 16 m.length, done := true, busy := false }

/-- 43_oaep.md R184: OAEPDEC ends with E_PARAM (2) before it decodes, and with E_DECODE (7) and the decoder's sub-code
on a block that fails. -/
def Obligations.OaepdecRejects : Prop :=
  ∀ (s : State) (sa : Selector) (b : Buf), (sa, b) ∈ operandSelectors →
    (s.config.kmax < s.k ∨ s.config.lmax < s.llen.toNat → exec (.oaepdec sa) s = .next (s.failed 2#8 0#8)) ∧
    ∀ sub, s.k ≤ s.config.kmax → s.llen.toNat ≤ s.config.lmax →
      oaepDecode (s.mem.readBytes b.base s.k) s.k (s.mem.readBytes 0x1C00 s.llen.toNat) = .fail sub →
      exec (.oaepdec sa) s = .next (s.failed 7#8 sub)

/-- 43_oaep.md R180: the layout of the encoded block: `k` bytes, byte 0 zero, its value below 256^(k-1), and the data
block under the masks is lHash, zero bytes, 0x01 and the message. -/
def Obligations.EncodedBlockLayout : Prop :=
  ∀ (msg label seed : List Byte) (k : Nat), msg.length + 66 ≤ k → seed.length = 32 →
    (oaepEncode msg k label seed).length = k ∧
    (oaepEncode msg k label seed).head? = some 0x00#8 ∧
    beInt (oaepEncode msg k label seed) < 256 ^ (k - 1) ∧
    oaepUnmask (oaepEncode msg k label seed) k =
      sha256 label ++ zeroBytes (k - msg.length - 66) ++ [0x01#8] ++ msg

/-- 43_oaep.md R187, which the spec marks "[derived: from rules R181 and R183]": decoding an encoded block gives the
message back; with another label it fails with sub-code 2 unless the two labels have the same digest. -/
def Obligations.OaepRoundTrip : Prop :=
  ∀ (msg label label' seed : List Byte) (k : Nat), msg.length + 66 ≤ k → seed.length = 32 →
    oaepDecode (oaepEncode msg k label seed) k label = .msg msg ∧
    (sha256 label' ≠ sha256 label → oaepDecode (oaepEncode msg k label seed) k label' = .fail 2#8)

/-- 43_oaep.md R183, R185: the first failing check in the order length, label hash, separator, leading byte is the one
reported. -/
def Obligations.DecoderReportsFirstFailingCheck : Prop :=
  ∀ (em label : List Byte) (k : Nat),
    (k < 66 → oaepDecode em k label = .fail 1#8) ∧
    (66 ≤ k → (oaepUnmask em k).take 32 ≠ sha256 label → oaepDecode em k label = .fail 2#8) ∧
    (66 ≤ k → (oaepUnmask em k).take 32 = sha256 label →
      (∀ zeros y rest, (oaepUnmask em k).drop 32 = zeroBytes zeros ++ y :: rest → y ≠ 0x00#8 → y ≠ 0x01#8 →
        oaepDecode em k label = .fail 3#8) ∧
      (∀ zeros, (oaepUnmask em k).drop 32 = zeroBytes zeros → oaepDecode em k label = .fail 4#8) ∧
      (∀ zeros msg, (oaepUnmask em k).drop 32 = zeroBytes zeros ++ 0x01#8 :: msg →
        oaepDecode em k label = if em.headD 0x00#8 = 0x00#8 then .msg msg else .fail 5#8))

/-- 30_encoding.md R97, 60_exceptions.md R226: a command term with a selector outside its subset ends with E_OPCODE (1)
before any other check (notes/assumptions/10.md). -/
def Obligations.IllFormedCommandIsIllegal : Prop :=
  ∀ (i : Instr) (s : State), ¬ i.WellFormed → exec i s = .next (s.failed 1#8 0#8)

/-! ### Frames -/

/-- 40_command_execution.md R114, 41_montgomery.md R139, 42_hash_mgf1.md R167: MONTMUL, MODMUL, MODEXP and MGF1 change no
byte outside RBUF[0:len], `len` being KLEN or the immediate, and no register, flag or hidden constant but the
completion report. -/
def Obligations.ResultBufferCommandsFrame : Prop :=
  ∀ (i : Instr) (len : Nat) (s t : State),
    ((∃ sa sb, i = .montmul sa sb) ∧ len = s.k ∨ (∃ sa sb, i = .modmul sa sb) ∧ len = s.k ∨
      (∃ sa, i = .modexp sa) ∧ len = s.k ∨ ∃ imm, i = .mgf1 imm ∧ len = imm.toNat) →
    exec i s = .next t →
    s.onlyMemAndReport t ∧
    ∀ addr, addr < 0x1400 ∨ 0x1400 + len ≤ addr → t.mem.read addr = s.mem.read addr

/-- 42_hash_mgf1.md R164, 10_state.md R46: HASH changes no byte outside DIGEST, and no register, flag or hidden constant
but the completion report. -/
def Obligations.HashFrame : Prop :=
  ∀ (sa : Selector) (s t : State), exec (.hash sa) s = .next t →
    s.onlyMemAndReport t ∧ ∀ addr, addr < 0x0060 ∨ 0x0080 ≤ addr → t.mem.read addr = s.mem.read addr

/-- 43_oaep.md R182, 10_state.md R44: OAEPENC changes no byte outside ABUF[0:k] and, when it draws its seed, SEED; when it
does not draw, SEED and the entropy port's bytes are as before. No register, flag or hidden constant changes but the
completion report. -/
def Obligations.OaepencFrame : Prop :=
  ∀ s t : State, exec .oaepenc s = .next t →
    { s with entropy := t.entropy }.onlyMemAndReport t ∧
    (s.seedSelL = true → t.entropy = s.entropy) ∧
    ∀ addr, addr < 0x0C00 ∨ 0x0C00 + s.k ≤ addr → (s.seedSelL = false → addr < 0x0040 ∨ 0x0060 ≤ addr) →
      t.mem.read addr = s.mem.read addr

/-- 43_oaep.md R184: OAEPDEC changes no byte outside the decoded message's slice of MBUF, none when the block does not
decode, and no register but MLEN and the completion report. -/
def Obligations.OaepdecFrame : Prop :=
  ∀ (sa : Selector) (b : Buf) (s t : State), (sa, b) ∈ operandSelectors → exec (.oaepdec sa) s = .next t →
    { s with mlen := t.mlen }.onlyMemAndReport t ∧
    ∀ addr, (∀ m, oaepDecode (s.mem.readBytes b.base s.k) s.k (s.mem.readBytes 0x1C00 s.llen.toNat) = .msg m →
        addr < 0x1800 ∨ 0x1800 + m.length ≤ addr) →
      t.mem.read addr = s.mem.read addr

/-- 41_montgomery.md R133, 40_command_execution.md R115: NOP and MINIT store no byte; NOP changes no register, MINIT only
N0INV, RR and KEYOK, beside the completion report. -/
def Obligations.NonStoringCommandsFrame : Prop :=
  ∀ s t : State,
    (exec .nop s = .next t → s.onlyMemAndReport t ∧ ∀ addr, t.mem.read addr = s.mem.read addr) ∧
    (exec .minit s = .next t →
      { s with n0inv := t.n0inv, rr := t.rr, keyok := t.keyok }.onlyMemAndReport t ∧
      ∀ addr, t.mem.read addr = s.mem.read addr)

/-! ### The host port -/

/-- 20_memory.md R61, R62, R64: an idle read at an address of a buffer returns the four bytes there, the first in bits
31:24, and changes nothing. -/
def Obligations.BufferWordReadsBigEndian : Prop :=
  ∀ (s : State) (a : WordAddr) (b : Buf), s.config.wf = true → s.busy = false →
    b.base ≤ byteAddr a → byteAddr a < b.base + b.size s.config →
    ∃ w : Word, hostRead a s = { s with rdata := w } ∧
      w.toNat = (s.mem.read (byteAddr a)).toNat * 2 ^ 24 + (s.mem.read (byteAddr a + 1)).toNat * 2 ^ 16 +
        (s.mem.read (byteAddr a + 2)).toNat * 2 ^ 8 + (s.mem.read (byteAddr a + 3)).toNat

/-- 20_memory.md R61, R63, R64, R68, R69: an idle write at an address of a buffer other than DIGEST reads back, leaves
every other byte alone, and changes nothing but memory and, in NBUF, KEYOK, which it clears. The premise on memory is its
canonical form, which every step keeps. -/
def Obligations.BufferWordWriteReadsBack : Prop :=
  ∀ (s : State) (a : WordAddr) (v : Word) (b : Buf), s.config.wf = true → s.busy = false → s.mem.wf = true →
    b ≠ .digest → b.base ≤ byteAddr a → byteAddr a < b.base + b.size s.config →
    (hostRead a (hostWrite a v s)).rdata = v ∧
    (∀ addr, addr < byteAddr a ∨ byteAddr a + 4 ≤ addr → (hostWrite a v s).mem.read addr = s.mem.read addr) ∧
    hostWrite a v s =
      { s with mem := (hostWrite a v s).mem, keyok := if b = .nbuf then false else s.keyok }

/-- 20_memory.md R67: while BUSY = 1 a read of the data region returns 0 and sets LOCKV; a write to it, or to CMD, KLEN,
MLEN or LLEN, is dropped and sets LOCKV; register reads and writes to CTRL and STATUS are not locked. -/
def Obligations.LockHidesAndDrops : Prop :=
  ∀ (s : State) (a : WordAddr) (v : Word), s.busy = true →
    (0x40 ≤ byteAddr a → hostRead a s = { s with rdata := 0#32, lockv := true }) ∧
    (0x40 ≤ byteAddr a ∨ byteAddr a = 0x14 ∨ byteAddr a = 0x18 ∨ byteAddr a = 0x1C ∨ byteAddr a = 0x20 →
      hostWrite a v s = { s with lockv := true }) ∧
    (byteAddr a < 0x40 → ∃ w, hostRead a s = { s with rdata := w }) ∧
    (byteAddr a = 0x18 → (hostRead a s).rdata.toNat = s.klen.toNat) ∧
    (byteAddr a = 0x08 → hostWrite a v s = s.writeCtrl v) ∧
    (byteAddr a = 0x0C → hostWrite a v s = s.clearStatus v)

/-- The unmapped data-region byte addresses (20_memory.md R66): 0x0080-0x03FF and window offsets at or beyond the
buffer's size. -/
def unmappedDataByte (c : Config) (a : Nat) : Prop :=
  (0x80 ≤ a ∧ a < 0x400) ∨ ∃ b : Buf, b.isLarge = true ∧ b.base + b.size c ≤ a ∧ a < b.base + 0x400

/-- 20_memory.md R66: unmapped addresses read 0 and ignore writes; of the data region it is still a lock violation while
BUSY = 1, of the control region never. -/
def Obligations.UnmappedAddresses : Prop :=
  ∀ (s : State) (a : WordAddr) (v : Word),
    (0x28 ≤ byteAddr a → byteAddr a < 0x40 → hostRead a s = { s with rdata := 0#32 } ∧ hostWrite a v s = s) ∧
    (unmappedDataByte s.config (byteAddr a) →
      (s.busy = false → hostRead a s = { s with rdata := 0#32 } ∧ hostWrite a v s = s) ∧
      (s.busy = true →
        hostRead a s = { s with rdata := 0#32, lockv := true } ∧ hostWrite a v s = { s with lockv := true }))

/-- 10_state.md R37: a write to ID, CAP, ERRINFO, N0INV changes nothing, busy or not, and one to a DIGEST word changes
nothing while BUSY = 0. -/
def Obligations.ReadOnlyLocationsIgnoreWrites : Prop :=
  ∀ (s : State) (a : WordAddr) (v : Word),
    (byteAddr a = 0x00 ∨ byteAddr a = 0x04 ∨ byteAddr a = 0x10 ∨ byteAddr a = 0x24 → hostWrite a v s = s) ∧
    (s.busy = false → 0x60 ≤ byteAddr a → byteAddr a < 0x80 → hostWrite a v s = s)

/-- 10_state.md R29: a host write clears KEYOK exactly when it is accepted and goes to KLEN or to a mapped word of NBUF,
whatever the value; no other write changes it. -/
def Obligations.KeyWritesClearKeyok : Prop :=
  ∀ (s : State) (a : WordAddr) (v : Word), s.config.wf = true →
    ((hostWrite a v s).keyok = true ↔
      s.keyok = true ∧ ¬(s.busy = false ∧
        (byteAddr a = 0x18 ∨ (0x400 ≤ byteAddr a ∧ byteAddr a < 0x400 + s.config.kmax))))

/-- 10_state.md R33, R34, R35: an idle write to a length register keeps bits 15:0 and nothing else, but that KLEN clears
KEYOK. -/
def Obligations.LengthRegisterWrites : Prop :=
  ∀ (s : State) (a : WordAddr) (v : Word), s.busy = false →
    (byteAddr a = 0x18 → hostWrite a v s = { s with klen := v.setWidth 16, keyok := false }) ∧
    (byteAddr a = 0x1C → hostWrite a v s = { s with mlen := v.setWidth 16 }) ∧
    (byteAddr a = 0x20 → hostWrite a v s = { s with llen := v.setWidth 16 })

/-- 10_state.md R25, R26, 60_exceptions.md R227: a CTRL write sets its three bits; a STATUS write clears exactly those of
DONE, ERR, LOCKV whose bit is 1; each at any time, and ERRINFO is kept. -/
def Obligations.ControlAndStatusWrites : Prop :=
  ∀ (s : State) (a : WordAddr) (v : Word),
    (byteAddr a = 0x08 → hostWrite a v s =
      { s with ieDone := v.getLsbD 0, ieErr := v.getLsbD 1, seedSel := v.getLsbD 2 }) ∧
    (byteAddr a = 0x0C → hostWrite a v s =
      { s with
        done := if v.getLsbD 1 then false else s.done
        err := if v.getLsbD 2 then false else s.err
        lockv := if v.getLsbD 4 then false else s.lockv })

/-- 10_state.md R23, R24, R25, R26, R31-R36: what a read of each register returns, as a number; it changes nothing. -/
def Obligations.RegisterReadValues : Prop :=
  ∀ (s : State) (a : WordAddr), s.config.wf = true → byteAddr a < 0x28 →
    ∃ w : Word, hostRead a s = { s with rdata := w } ∧
      (byteAddr a = 0x00 → w = 0x4D4D4531#32) ∧
      (byteAddr a = 0x04 → w.toNat = s.config.lmax * 65536 + s.config.kmax) ∧
      (byteAddr a = 0x08 → w.toNat = s.ieDone.toNat + 2 * s.ieErr.toNat + 4 * s.seedSel.toNat) ∧
      (byteAddr a = 0x0C → w.toNat =
        s.busy.toNat + 2 * s.done.toNat + 4 * s.err.toNat + 8 * s.keyok.toNat + 16 * s.lockv.toNat) ∧
      (byteAddr a = 0x10 → w.toNat = s.errSub.toNat * 256 + s.errCode.toNat) ∧
      (byteAddr a = 0x14 → w = 0#32) ∧
      (byteAddr a = 0x18 → w.toNat = s.klen.toNat) ∧
      (byteAddr a = 0x1C → w.toNat = s.mlen.toNat) ∧
      (byteAddr a = 0x20 → w.toNat = s.llen.toNat) ∧
      (byteAddr a = 0x24 → w = s.n0inv)

/-! ### Interrupt and reset -/

/-- 10_state.md R49: the interrupt output is this function of the state. -/
def Obligations.InterruptLevel : Prop :=
  ∀ s : State, s.irq = true ↔ (s.done = true ∧ s.ieDone = true) ∨ (s.err = true ∧ s.ieErr = true)

/-- 10_state.md R51, 70_reset_and_hazards.md R250, R253: what a reset leaves, busy or not: every register and flag 0,
SEED and DIGEST zero, `irq` 0, whatever the large buffers hold. -/
def Obligations.ResetValues : Prop :=
  ∀ (s : State) (contents : List Host.Cell), s.config.wf = true →
    ∃ t, applyInput (.reset contents) s = .next t ∧
      t.config = s.config ∧
      t.ieDone = false ∧ t.ieErr = false ∧ t.seedSel = false ∧
      t.busy = false ∧ t.done = false ∧ t.err = false ∧ t.keyok = false ∧ t.lockv = false ∧
      t.errCode = 0#8 ∧ t.errSub = 0#8 ∧ t.klen = 0#16 ∧ t.mlen = 0#16 ∧ t.llen = 0#16 ∧ t.n0inv = 0#32 ∧
      t.irq = false ∧
      ∀ addr, 0x0040 ≤ addr → addr < 0x0080 → t.mem.read addr = 0#8

/-- 10_state.md R51, 70_reset_and_hazards.md R252: reset leaves the seven large buffers open: for any bytes in them there
is a reset that leaves exactly those. -/
def Obligations.ResetLeavesLargeBuffersOpen : Prop :=
  ∀ (s : State) (m : Memory), m.wf = true → (∀ c ∈ m, largeByte s.config c.1 = true) →
    ∃ contents, (resetPin contents s).mem = m

/-! ### Invariants and whole-machine rules -/

/-- The invariant holds after reset, for every legal parameters and contents of the large buffers (10_state.md R51). -/
def Obligations.ResetSatisfiesInvariant : Prop :=
  State.reset.Inv ∧
  ∀ (c : Config) (contents : List Host.Cell), c.wf = true →
    (State.resetWith c (Memory.afterReset c contents)).Inv

/-- 10_state.md R28, R29, R31, 60_exceptions.md R221, R222: every step keeps the invariant: KEYOK = 1 goes with the
constants of the present modulus, DONE and ERR are never both 1, ERRINFO holds a known code, memory keeps its form. -/
def Obligations.StepKeepsInvariant : Prop :=
  ∀ s t : State, s.Inv → step s = .next t → t.Inv

/-- 20_memory.md R67, 70_reset_and_hazards.md R260: a host transaction while BUSY = 1 changes nothing the command uses,
and the completion step after it has the same outcome as without it. The premises on DONE and ERR hold of every state
with BUSY = 1 that the block can be in, and they hold after the transaction again, so that any number of transactions
follows by repeating. -/
def Obligations.HostCannotDisturbCommand : Prop :=
  ∀ (s s' t : State) (i : Input), i.isTransaction = true → s.busy = true → s.done = false → s.err = false →
    applyInput i s = .next s' → engineTurn s = .next t →
    SameForCommand s s' ∧ s'.busy = true ∧ s'.done = false ∧ s'.err = false ∧
    ∃ t', engineTurn s' = .next t' ∧ SameForCommand t t' ∧ t'.done = t.done ∧ t'.err = t.err

/-- 10_state.md R27: BUSY rises only by the acceptance of a command, a CMD write, and falls only by the engine's turn or
by reset. -/
def Obligations.BusyChangesOnlyByAcceptanceAndCompletion : Prop :=
  ∀ (i : Input) (s t : State), applyInput i s = .next t →
    (s.busy = false → t.busy = true → ∃ a w, i = .write a w ∧ byteAddr a = 0x14 ∧ t.cmdreg = w) ∧
    (s.busy = true → t.busy = false → i = .engine ∨ ∃ contents, i = .reset contents)

/-- 10_state.md R29, R36, R38, R46: no command but MINIT changes KEYOK, N0INV or RR; none but HASH changes a byte of
DIGEST; and none changes a byte of NBUF, EBUF, BBUF or LBUF. The invariant bounds what a command stores. -/
def Obligations.HostOnlyBuffersAndUnitConstants : Prop :=
  ∀ (i : Instr) (s t : State), s.Inv → exec i s = .next t →
    (i ≠ .minit → t.keyok = s.keyok ∧ t.n0inv = s.n0inv ∧ t.rr = s.rr) ∧
    ((∀ sa, i ≠ .hash sa) → ∀ j, j < 32 → t.mem.read (0x0060 + j) = s.mem.read (0x0060 + j)) ∧
    ∀ b, b = Buf.nbuf ∨ b = Buf.ebuf ∨ b = Buf.bbuf ∨ b = Buf.lbuf → ∀ j, j < b.size s.config →
      t.mem.read (b.base + j) = s.mem.read (b.base + j)
end

