-- ==== Sys2Proof/Laws/Arith.lean ====
section
/-! SUPPORT. The laws of the Montgomery unit's functions: that each computes what 41_montgomery.md states it as. -/

namespace Sys2Proof.Machine

theorem powModBits_eq (n fuel a e : Nat) (h : e < 2 ^ fuel) : powModBits n fuel a e = a ^ e % n := by
  induction fuel generalizing a e with
  | zero => simp at h; simp [powModBits, h]
  | succ fuel ih =>
    have hrec := ih (a * a % n) (e / 2) (by rw [pow_succ] at h; omega)
    have hsq : (a * a % n) ^ (e / 2) % n = a ^ (2 * (e / 2)) % n := by
      rw [← Nat.pow_mod, pow_mul, pow_two]
    unfold powModBits
    split
    · next hodd =>
      rw [hrec, hsq, Nat.mul_mod_mod, ← pow_succ', show 2 * (e / 2) + 1 = e by omega]
    · next heven => rw [hrec, hsq, show 2 * (e / 2) = e by omega]

/-- The exponentiation the model runs is the one the spec states: `(a ^ e) mod n` (41_montgomery.md R136). -/
theorem powMod_eq (a e n : Nat) : powMod a e n = a ^ e % n :=
  powModBits_eq n _ a e Nat.lt_log2_self

theorem radix_pos (k : Nat) : 0 < radix k := by unfold radix; positivity

/-- Every k-byte operand is below the radix (41_montgomery.md R130). -/
theorem pow_le_radix (k : Nat) : 256 ^ k ≤ radix k := by
  rw [radix, wordCount, Config.wordBits, show (256 : Nat) = 2 ^ 8 from rfl, ← pow_mul]
  exact Nat.pow_le_pow_right (by norm_num) (by omega)

/-- `(Rm · Rinv) mod n = 1` (41_montgomery.md R131). -/
theorem radix_mul_rInv (n k : Nat) (hodd : n % 2 = 1) (hn : 3 ≤ n) : radix k * rInv n k % n = 1 := by
  have h2 : 2 * ((n + 1) / 2) % n = 1 := by
    rw [show 2 * ((n + 1) / 2) = n + 1 by omega, Nat.add_mod_left, Nat.mod_eq_of_lt (by omega)]
  rw [rInv, powMod_eq, radix, Nat.mul_mod_mod, ← Nat.mul_pow, Nat.pow_mod, h2, Nat.one_pow, Nat.mod_eq_of_lt (by omega)]

theorem rInv_lt (n k : Nat) (hn : 0 < n) : rInv n k < n := by
  rw [rInv, powMod_eq]; exact Nat.mod_lt _ hn

/-- The radix is invertible modulo an odd `n`, so it cancels. -/
theorem radix_cancel {n k x y : Nat} (hodd : n % 2 = 1) (hx : x < n) (hy : y < n)
    (h : radix k * x % n = radix k * y % n) : x = y := by
  have hcop : Nat.Coprime (radix k) n := by
    exact Nat.Coprime.pow_left _ (Nat.coprime_two_left.2 (Nat.odd_iff.2 hodd))
  have : x ≡ y [MOD n] := Nat.ModEq.cancel_left_of_coprime (by simpa [Nat.coprime_comm] using hcop) h
  rwa [Nat.ModEq, Nat.mod_eq_of_lt hx, Nat.mod_eq_of_lt hy] at this

theorem montMul_lt (a b n k : Nat) (hn : 0 < n) : montMul a b n k < n := Nat.mod_lt _ hn

/-- What the Montgomery product is: times the radix it is the plain product (41_montgomery.md R131). -/
theorem radix_mul_montMul (a b n k : Nat) (hodd : n % 2 = 1) (hn : 3 ≤ n) :
    radix k * montMul a b n k % n = a * b % n := by
  rw [montMul, Nat.mul_mod_mod, show radix k * (a * b * rInv n k) = a * b * (radix k * rInv n k) by ring, Nat.mul_mod,
    radix_mul_rInv n k hodd hn, Nat.mul_one, Nat.mod_mod]

/-- Bit by bit, `n·x + 1` becomes divisible by higher powers of 2 (41_montgomery.md R133). -/
theorem negInv_fold (n : Nat) (hodd : n % 2 = 1) (bits : Nat) :
    (n * (List.range bits).foldl (negInvStep n) 0 + 1) % 2 ^ bits = 0 ∧ (List.range bits).foldl (negInvStep n) 0 < 2 ^ bits := by
  induction bits with
  | zero => simp
  | succ j ih =>
    rw [List.range_succ, List.foldl_append, List.foldl_cons, List.foldl_nil]
    generalize (List.range j).foldl (negInvStep n) 0 = x at ih ⊢
    obtain ⟨⟨q, hq⟩, hx⟩ := And.imp_left Nat.dvd_of_mod_eq_zero ih
    have hdiv : (n * x + 1) / 2 ^ j = q := by rw [hq]; exact Nat.mul_div_cancel_left _ (by positivity)
    unfold negInvStep
    rw [hdiv]
    split
    · next hodd' =>
      refine ⟨Nat.mod_eq_zero_of_dvd ⟨(q + n) / 2, ?_⟩, by rw [pow_succ]; omega⟩
      have h2 : 2 * ((q + n) / 2) = q + n := by omega
      rw [pow_succ, Nat.mul_assoc, h2, Nat.mul_add, Nat.mul_add, ← hq]
      ring
    · next heven =>
      refine ⟨Nat.mod_eq_zero_of_dvd ⟨q / 2, ?_⟩, by rw [pow_succ]; omega⟩
      have h2 : 2 * (q / 2) = q := by omega
      rw [pow_succ, Nat.mul_assoc, h2, hq]

/-- `(n·N0INV + 1) mod 2^32 = 0` for odd `n` (41_montgomery.md R133). -/
theorem negInvWord_spec (n : Nat) (hodd : n % 2 = 1) : (n * negInvWord n + 1) % 2 ^ 32 = 0 :=
  (negInv_fold n hodd 32).1

theorem negInvWord_lt (n : Nat) (hodd : n % 2 = 1) : negInvWord n < 2 ^ 32 := (negInv_fold n hodd 32).2

/-! ### The word-serial reference -/

@[simp] theorem wordDigits_length (v count : Nat) : (wordDigits v count).length = count := by simp [wordDigits]

/-- The digits of a number in range make it up again. -/
theorem digitsValue_append (ds es : List Nat) :
    digitsValue (ds ++ es) = digitsValue ds + 2 ^ (Config.wordBits * ds.length) * digitsValue es := by
  induction ds with
  | nil => simp [digitsValue]
  | cons d ds ih =>
    simp only [List.cons_append, digitsValue, ih, List.length_cons, Nat.mul_add, Nat.mul_one, pow_add]
    ring

theorem wordDigits_succ (v count : Nat) :
    wordDigits v (count + 1) = wordDigits v count ++ [v / 2 ^ (Config.wordBits * count) % 2 ^ Config.wordBits] := by
  simp [wordDigits, List.range_succ]

theorem digitsValue_wordDigits (v count : Nat) : digitsValue (wordDigits v count) = v % 2 ^ (Config.wordBits * count) := by
  induction count with
  | zero => simp [wordDigits, digitsValue, Nat.mod_one]
  | succ c ih =>
    rw [wordDigits_succ, digitsValue_append, ih, wordDigits_length, Nat.mul_add, Nat.mul_one, pow_add, Nat.mod_mul]
    simp [digitsValue]

/-- One inner loop adds `x·y` and the carry, exactly (41_montgomery.md R132). -/
theorem mulAddRow_value (y carry : Nat) (ts xs : List Nat) (h : ts.length = xs.length) :
    digitsValue (mulAddRow y carry ts xs).1 + 2 ^ (Config.wordBits * xs.length) * (mulAddRow y carry ts xs).2 =
      digitsValue ts + digitsValue xs * y + carry := by
  induction ts generalizing carry xs with
  | nil =>
    cases xs with
    | nil => simp [mulAddRow, digitsValue]
    | cons x xs => simp at h
  | cons t ts ih =>
    cases xs with
    | nil => simp at h
    | cons x xs =>
      have hrec := ih ((t + x * y + carry) / 2 ^ Config.wordBits) xs (by simpa using h)
      have hsum := Nat.mod_add_div (t + x * y + carry) (2 ^ Config.wordBits)
      simp only [mulAddRow, digitsValue, List.length_cons, Nat.mul_add, Nat.mul_one, pow_add]
      linear_combination hsum + 2 ^ Config.wordBits * hrec

theorem mulAddRow_length (y carry : Nat) (ts xs : List Nat) (h : ts.length = xs.length) :
    (mulAddRow y carry ts xs).1.length = xs.length := by
  induction ts generalizing carry xs with
  | nil => cases xs with
    | nil => rfl
    | cons x xs => simp at h
  | cons t ts ih =>
    cases xs with
    | nil => simp at h
    | cons x xs => simp [mulAddRow, ih _ xs (by simpa using h)]

end Sys2Proof.Machine
end

