-- ==== Sys2Proof/Laws/Bytes.lean ====
section
/-! SUPPORT. The laws of byte strings as big-endian integers (00_scope.md R10) and of the bytes of a word (20_memory.md
R64). -/

namespace Sys2Proof.Machine

@[simp] theorem beInt_nil : beInt [] = 0 := rfl

theorem beInt_append_one (bs : List Byte) (b : Byte) : beInt (bs ++ [b]) = beInt bs * 256 + b.toNat := by
  simp [beInt, List.foldl_append]

/-- The first byte is the most significant. -/
theorem beInt_cons (b : Byte) (bs : List Byte) : beInt (b :: bs) = b.toNat * 256 ^ bs.length + beInt bs := by
  induction bs using List.reverseRecOn with
  | nil => simp [beInt]
  | append_singleton bs c ih =>
    rw [← List.cons_append, beInt_append_one, beInt_append_one, ih, List.length_append, List.length_singleton, pow_succ]
    ring

theorem beInt_lt (bs : List Byte) : beInt bs < 256 ^ bs.length := by
  induction bs with
  | nil => simp
  | cons b bs ih =>
    have hb : b.toNat < 256 := b.isLt
    rw [beInt_cons, List.length_cons, pow_succ]
    nlinarith [Nat.one_le_pow bs.length 256 (by norm_num)]

@[simp] theorem beBytes_length (v c : Nat) : (beBytes v c).length = c := by simp [beBytes]

@[simp] theorem beBytes_zero (v : Nat) : beBytes v 0 = [] := rfl

/-- The last byte is the least significant digit. -/
theorem beBytes_succ (v c : Nat) : beBytes v (c + 1) = beBytes (v / 256) c ++ [BitVec.ofNat 8 v] := by
  simp only [beBytes, List.range_succ, List.map_append, List.map_singleton, Nat.add_sub_cancel, Nat.sub_self, pow_zero,
    Nat.div_one]
  congr 1
  refine List.map_congr_left fun i hi => ?_
  have hi : i < c := List.mem_range.1 hi
  rw [Nat.div_div_eq_div_mul, ← pow_succ', show c - 1 - i + 1 = c - i by omega]

/-- `be_int(be_bytes(v, c)) = v` for `v < 256^c` (00_scope.md R10). -/
theorem beInt_beBytes (v c : Nat) (h : v < 256 ^ c) : beInt (beBytes v c) = v := by
  induction c generalizing v with
  | zero => simp at h; simp [h]
  | succ c ih =>
    rw [beBytes_succ, beInt_append_one, ih (v / 256) (by rw [pow_succ] at h; omega), BitVec.toNat_ofNat]
    omega

/-- `B` is the unique string of its length with its integer value (00_scope.md R10). -/
theorem beInt_inj {as bs : List Byte} (hlen : as.length = bs.length) (h : beInt as = beInt bs) : as = bs := by
  induction as generalizing bs with
  | nil => exact (List.eq_nil_of_length_eq_zero hlen.symm).symm
  | cons a as ih =>
    cases bs with
    | nil => simp at hlen
    | cons b bs =>
      have hl : as.length = bs.length := by simpa using hlen
      rw [beInt_cons, beInt_cons, hl] at h
      have ha := hl ▸ beInt_lt as
      have hb := beInt_lt bs
      have hab : a.toNat = b.toNat := by
        have hx := congrArg (· / 256 ^ bs.length) h
        simp only [Nat.mul_comm _ (256 ^ bs.length)] at hx
        rwa [Nat.mul_add_div (by positivity), Nat.mul_add_div (by positivity), Nat.div_eq_of_lt ha, Nat.div_eq_of_lt hb,
          Nat.add_zero, Nat.add_zero] at hx
      rw [hab] at h
      rw [BitVec.eq_of_toNat_eq hab, ih hl (by omega)]

/-- `be_bytes(be_int(B), len(B)) = B`. -/
theorem beBytes_beInt (bs : List Byte) : beBytes (beInt bs) bs.length = bs :=
  beInt_inj (by simp) (beInt_beBytes _ _ (beInt_lt bs))

@[simp] theorem zeroBytes_length (c : Nat) : (zeroBytes c).length = c := by simp [zeroBytes]

@[simp] theorem xorBytes_length (as bs : List Byte) : (xorBytes as bs).length = min as.length bs.length := by
  simp [xorBytes]

/-- XOR with the same mask twice gives the string back. -/
theorem xorBytes_xorBytes (as ms : List Byte) (h : as.length ≤ ms.length) : xorBytes (xorBytes as ms) ms = as := by
  induction as generalizing ms with
  | nil => simp [xorBytes]
  | cons a as ih =>
    cases ms with
    | nil => simp at h
    | cons m ms =>
      have := ih ms (by simpa using h)
      simp only [xorBytes, List.zipWith_cons_cons] at this ⊢
      rw [this, BitVec.xor_assoc, BitVec.xor_self, BitVec.xor_zero]

theorem slice_length (bs : List Byte) (i j : Nat) : (slice bs i j).length = min (j - i) (bs.length - i) := by
  simp [slice]

@[simp] theorem bytesOfWord_length (w : Word) : (bytesOfWord w).length = 4 := rfl

/-- A word is what its four bytes make (20_memory.md R64). -/
theorem wordOfBytes_bytesOfWord (w : Word) :
    wordOfBytes (w.extractLsb' 24 8) (w.extractLsb' 16 8) (w.extractLsb' 8 8) (w.extractLsb' 0 8) = w := by
  unfold wordOfBytes
  ext i hi
  simp only [BitVec.getElem_append]
  repeat' split
  all_goals
    rw [BitVec.getElem_extractLsb', ← BitVec.getLsbD_eq_getElem hi]
    congr 1
    omega

end Sys2Proof.Machine
end

