-- ==== Sys2Proof/Laws/Decode.lean ====
section
/-! SUPPORT. The fields of a command word as arithmetic (30_encoding.md R91): a packed word has the fields it was packed
from, and a word is the packing of its fields. -/

namespace Sys2Proof

theorem append_toNat {m n : Nat} (x : BitVec m) (y : BitVec n) : (x ++ y).toNat = x.toNat * 2 ^ n + y.toNat := by
  rw [BitVec.toNat_append, ← Nat.shiftLeft_add_eq_or_of_lt y.isLt, Nat.shiftLeft_eq]

theorem opcodeField_toNat (w : Word) : (opcodeField w).toNat = w.toNat % 256 := by
  simp [opcodeField, BitVec.extractLsb'_toNat]

theorem saField_toNat (w : Word) : (saField w).toNat = w.toNat / 256 % 16 := by
  simp [saField, BitVec.extractLsb'_toNat, Nat.shiftRight_eq_div_pow]

theorem sbField_toNat (w : Word) : (sbField w).toNat = w.toNat / 4096 % 16 := by
  simp [sbField, BitVec.extractLsb'_toNat, Nat.shiftRight_eq_div_pow]

theorem immField_toNat (w : Word) : (immField w).toNat = w.toNat / 65536 := by
  have := w.isLt
  simp only [immField, BitVec.extractLsb'_toNat, Nat.shiftRight_eq_div_pow]
  omega

theorem pack_toNat (op : BitVec 8) (sa sb : Selector) (imm : Half) :
    (pack op sa sb imm).toNat = ((imm.toNat * 16 + sb.toNat) * 16 + sa.toNat) * 256 + op.toNat := by
  simp only [pack, append_toNat, show (2 : Nat) ^ 4 = 16 by rfl, show (2 : Nat) ^ 8 = 256 by rfl]

@[simp] theorem opcodeField_pack (op : BitVec 8) (sa sb : Selector) (imm : Half) :
    opcodeField (pack op sa sb imm) = op := by
  apply BitVec.eq_of_toNat_eq
  have := op.isLt
  rw [opcodeField_toNat, pack_toNat]; omega

@[simp] theorem saField_pack (op : BitVec 8) (sa sb : Selector) (imm : Half) : saField (pack op sa sb imm) = sa := by
  apply BitVec.eq_of_toNat_eq
  have := op.isLt
  have := sa.isLt
  rw [saField_toNat, pack_toNat]; omega

@[simp] theorem sbField_pack (op : BitVec 8) (sa sb : Selector) (imm : Half) : sbField (pack op sa sb imm) = sb := by
  apply BitVec.eq_of_toNat_eq
  have := op.isLt
  have := sa.isLt
  have := sb.isLt
  rw [sbField_toNat, pack_toNat]; omega

@[simp] theorem immField_pack (op : BitVec 8) (sa sb : Selector) (imm : Half) :
    immField (pack op sa sb imm) = imm := by
  apply BitVec.eq_of_toNat_eq
  have := op.isLt
  have := sa.isLt
  have := sb.isLt
  rw [immField_toNat, pack_toNat]; omega

/-- A word is the packing of its fields. -/
theorem pack_fields (w : Word) : pack (opcodeField w) (saField w) (sbField w) (immField w) = w := by
  apply BitVec.eq_of_toNat_eq
  rw [pack_toNat, opcodeField_toNat, saField_toNat, sbField_toNat, immField_toNat]; omega

/-- Two words with the same fields are equal. -/
theorem word_ext {v w : Word} (hop : opcodeField v = opcodeField w) (hsa : saField v = saField w)
    (hsb : sbField v = sbField w) (himm : immField v = immField w) : v = w := by
  rw [← pack_fields v, ← pack_fields w, hop, hsa, hsb, himm]

/-- Packing is injective. -/
theorem pack_inj {op op' : BitVec 8} {sa sa' sb sb' : Selector} {imm imm' : Half} :
    pack op sa sb imm = pack op' sa' sb' imm' ↔ op = op' ∧ sa = sa' ∧ sb = sb' ∧ imm = imm' := by
  constructor
  · intro h
    exact ⟨by simpa using congrArg opcodeField h, by simpa using congrArg saField h,
      by simpa using congrArg sbField h, by simpa using congrArg immField h⟩
  · rintro ⟨rfl, rfl, rfl, rfl⟩; rfl

theorem and_append_append {m n : Nat} (x x' : BitVec m) (y y' : BitVec n) :
    (x ++ y) &&& (x' ++ y') = (x &&& x') ++ (y &&& y') := by
  ext i hi
  simp only [BitVec.getElem_and, BitVec.getElem_append]
  split <;> simp

/-- A mask applies field by field (30_encoding.md R95). -/
theorem mask_pack (w : Word) (op : BitVec 8) (sa sb : Selector) (imm : Half) :
    w &&& pack op sa sb imm = pack (opcodeField w &&& op) (saField w &&& sa) (sbField w &&& sb) (immField w &&& imm) := by
  conv_lhs => rw [← pack_fields w]
  unfold pack
  refine (and_append_append (m := 24) (n := 8) _ _ _ _).trans ?_
  congr 1
  refine (and_append_append (m := 20) (n := 4) _ _ _ _).trans ?_
  congr 1
  exact and_append_append (m := 16) (n := 4) _ _ _ _

/-- A mask that covers whole fields compares them: the low 16 bits. -/
theorem mask_low_half (w : Word) : (w &&& 0x0000FFFF#32).toNat = w.toNat % 65536 := by
  rw [BitVec.toNat_and, show (0x0000FFFF#32 : Word).toNat = 2 ^ 16 - 1 by decide, Nat.and_two_pow_sub_one_eq_mod]

end Sys2Proof
end

