-- ==== Sys2Proof/Laws/State.lean ====
section
/-! SUPPORT. One lemma per field per update of State, each true by rfl, so that no later proof unfolds a record
update. -/

namespace Sys2Proof.Machine

/-! ### Error entry (60_exceptions.md R224) -/

@[simp] theorem State.raiseError_config (s : State) (code : ErrCode) (sub : BitVec 8) : (s.raiseError code sub).config = s.config := rfl
@[simp] theorem State.raiseError_ieDone (s : State) (code : ErrCode) (sub : BitVec 8) : (s.raiseError code sub).ieDone = s.ieDone := rfl
@[simp] theorem State.raiseError_ieErr (s : State) (code : ErrCode) (sub : BitVec 8) : (s.raiseError code sub).ieErr = s.ieErr := rfl
@[simp] theorem State.raiseError_seedSel (s : State) (code : ErrCode) (sub : BitVec 8) : (s.raiseError code sub).seedSel = s.seedSel := rfl
@[simp] theorem State.raiseError_busy (s : State) (code : ErrCode) (sub : BitVec 8) : (s.raiseError code sub).busy = false := rfl
@[simp] theorem State.raiseError_done (s : State) (code : ErrCode) (sub : BitVec 8) : (s.raiseError code sub).done = s.done := rfl
@[simp] theorem State.raiseError_err (s : State) (code : ErrCode) (sub : BitVec 8) : (s.raiseError code sub).err = true := rfl
@[simp] theorem State.raiseError_keyok (s : State) (code : ErrCode) (sub : BitVec 8) : (s.raiseError code sub).keyok = s.keyok := rfl
@[simp] theorem State.raiseError_lockv (s : State) (code : ErrCode) (sub : BitVec 8) : (s.raiseError code sub).lockv = s.lockv := rfl
@[simp] theorem State.raiseError_errCode (s : State) (code : ErrCode) (sub : BitVec 8) : (s.raiseError code sub).errCode = code.number := rfl
@[simp] theorem State.raiseError_errSub (s : State) (code : ErrCode) (sub : BitVec 8) : (s.raiseError code sub).errSub = sub := rfl
@[simp] theorem State.raiseError_klen (s : State) (code : ErrCode) (sub : BitVec 8) : (s.raiseError code sub).klen = s.klen := rfl
@[simp] theorem State.raiseError_mlen (s : State) (code : ErrCode) (sub : BitVec 8) : (s.raiseError code sub).mlen = s.mlen := rfl
@[simp] theorem State.raiseError_llen (s : State) (code : ErrCode) (sub : BitVec 8) : (s.raiseError code sub).llen = s.llen := rfl
@[simp] theorem State.raiseError_n0inv (s : State) (code : ErrCode) (sub : BitVec 8) : (s.raiseError code sub).n0inv = s.n0inv := rfl
@[simp] theorem State.raiseError_mem (s : State) (code : ErrCode) (sub : BitVec 8) : (s.raiseError code sub).mem = s.mem := rfl
@[simp] theorem State.raiseError_cmdreg (s : State) (code : ErrCode) (sub : BitVec 8) : (s.raiseError code sub).cmdreg = s.cmdreg := rfl
@[simp] theorem State.raiseError_seedSelL (s : State) (code : ErrCode) (sub : BitVec 8) : (s.raiseError code sub).seedSelL = s.seedSelL := rfl
@[simp] theorem State.raiseError_rr (s : State) (code : ErrCode) (sub : BitVec 8) : (s.raiseError code sub).rr = s.rr := rfl
@[simp] theorem State.raiseError_rdata (s : State) (code : ErrCode) (sub : BitVec 8) : (s.raiseError code sub).rdata = s.rdata := rfl
@[simp] theorem State.raiseError_entropy (s : State) (code : ErrCode) (sub : BitVec 8) : (s.raiseError code sub).entropy = s.entropy := rfl
@[simp] theorem State.raiseError_inputs (s : State) (code : ErrCode) (sub : BitVec 8) : (s.raiseError code sub).inputs = s.inputs := rfl

/-! ### The end of a successful completion step (40_command_execution.md R112) -/

@[simp] theorem State.commit_config (s : State) : (s.commit).config = s.config := rfl
@[simp] theorem State.commit_ieDone (s : State) : (s.commit).ieDone = s.ieDone := rfl
@[simp] theorem State.commit_ieErr (s : State) : (s.commit).ieErr = s.ieErr := rfl
@[simp] theorem State.commit_seedSel (s : State) : (s.commit).seedSel = s.seedSel := rfl
@[simp] theorem State.commit_busy (s : State) : (s.commit).busy = false := rfl
@[simp] theorem State.commit_done (s : State) : (s.commit).done = true := rfl
@[simp] theorem State.commit_err (s : State) : (s.commit).err = s.err := rfl
@[simp] theorem State.commit_keyok (s : State) : (s.commit).keyok = s.keyok := rfl
@[simp] theorem State.commit_lockv (s : State) : (s.commit).lockv = s.lockv := rfl
@[simp] theorem State.commit_errCode (s : State) : (s.commit).errCode = s.errCode := rfl
@[simp] theorem State.commit_errSub (s : State) : (s.commit).errSub = s.errSub := rfl
@[simp] theorem State.commit_klen (s : State) : (s.commit).klen = s.klen := rfl
@[simp] theorem State.commit_mlen (s : State) : (s.commit).mlen = s.mlen := rfl
@[simp] theorem State.commit_llen (s : State) : (s.commit).llen = s.llen := rfl
@[simp] theorem State.commit_n0inv (s : State) : (s.commit).n0inv = s.n0inv := rfl
@[simp] theorem State.commit_mem (s : State) : (s.commit).mem = s.mem := rfl
@[simp] theorem State.commit_cmdreg (s : State) : (s.commit).cmdreg = s.cmdreg := rfl
@[simp] theorem State.commit_seedSelL (s : State) : (s.commit).seedSelL = s.seedSelL := rfl
@[simp] theorem State.commit_rr (s : State) : (s.commit).rr = s.rr := rfl
@[simp] theorem State.commit_rdata (s : State) : (s.commit).rdata = s.rdata := rfl
@[simp] theorem State.commit_entropy (s : State) : (s.commit).entropy = s.entropy := rfl
@[simp] theorem State.commit_inputs (s : State) : (s.commit).inputs = s.inputs := rfl

/-! ### Acceptance (40_command_execution.md R110) -/

@[simp] theorem State.accept_config (s : State) (w : Word) : (s.accept w).config = s.config := rfl
@[simp] theorem State.accept_ieDone (s : State) (w : Word) : (s.accept w).ieDone = s.ieDone := rfl
@[simp] theorem State.accept_ieErr (s : State) (w : Word) : (s.accept w).ieErr = s.ieErr := rfl
@[simp] theorem State.accept_seedSel (s : State) (w : Word) : (s.accept w).seedSel = s.seedSel := rfl
@[simp] theorem State.accept_busy (s : State) (w : Word) : (s.accept w).busy = true := rfl
@[simp] theorem State.accept_done (s : State) (w : Word) : (s.accept w).done = false := rfl
@[simp] theorem State.accept_err (s : State) (w : Word) : (s.accept w).err = false := rfl
@[simp] theorem State.accept_keyok (s : State) (w : Word) : (s.accept w).keyok = s.keyok := rfl
@[simp] theorem State.accept_lockv (s : State) (w : Word) : (s.accept w).lockv = s.lockv := rfl
@[simp] theorem State.accept_errCode (s : State) (w : Word) : (s.accept w).errCode = 0#8 := rfl
@[simp] theorem State.accept_errSub (s : State) (w : Word) : (s.accept w).errSub = 0#8 := rfl
@[simp] theorem State.accept_klen (s : State) (w : Word) : (s.accept w).klen = s.klen := rfl
@[simp] theorem State.accept_mlen (s : State) (w : Word) : (s.accept w).mlen = s.mlen := rfl
@[simp] theorem State.accept_llen (s : State) (w : Word) : (s.accept w).llen = s.llen := rfl
@[simp] theorem State.accept_n0inv (s : State) (w : Word) : (s.accept w).n0inv = s.n0inv := rfl
@[simp] theorem State.accept_mem (s : State) (w : Word) : (s.accept w).mem = s.mem := rfl
@[simp] theorem State.accept_cmdreg (s : State) (w : Word) : (s.accept w).cmdreg = w := rfl
@[simp] theorem State.accept_seedSelL (s : State) (w : Word) : (s.accept w).seedSelL = s.seedSel := rfl
@[simp] theorem State.accept_rr (s : State) (w : Word) : (s.accept w).rr = s.rr := rfl
@[simp] theorem State.accept_rdata (s : State) (w : Word) : (s.accept w).rdata = s.rdata := rfl
@[simp] theorem State.accept_entropy (s : State) (w : Word) : (s.accept w).entropy = s.entropy := rfl
@[simp] theorem State.accept_inputs (s : State) (w : Word) : (s.accept w).inputs = s.inputs := rfl

/-! ### A write to STATUS (10_state.md R26) -/

@[simp] theorem State.clearStatus_config (s : State) (v : Word) : (s.clearStatus v).config = s.config := rfl
@[simp] theorem State.clearStatus_ieDone (s : State) (v : Word) : (s.clearStatus v).ieDone = s.ieDone := rfl
@[simp] theorem State.clearStatus_ieErr (s : State) (v : Word) : (s.clearStatus v).ieErr = s.ieErr := rfl
@[simp] theorem State.clearStatus_seedSel (s : State) (v : Word) : (s.clearStatus v).seedSel = s.seedSel := rfl
@[simp] theorem State.clearStatus_busy (s : State) (v : Word) : (s.clearStatus v).busy = s.busy := rfl
@[simp] theorem State.clearStatus_done (s : State) (v : Word) : (s.clearStatus v).done = (s.done && !v.getLsbD 1) := rfl
@[simp] theorem State.clearStatus_err (s : State) (v : Word) : (s.clearStatus v).err = (s.err && !v.getLsbD 2) := rfl
@[simp] theorem State.clearStatus_keyok (s : State) (v : Word) : (s.clearStatus v).keyok = s.keyok := rfl
@[simp] theorem State.clearStatus_lockv (s : State) (v : Word) : (s.clearStatus v).lockv = (s.lockv && !v.getLsbD 4) := rfl
@[simp] theorem State.clearStatus_errCode (s : State) (v : Word) : (s.clearStatus v).errCode = s.errCode := rfl
@[simp] theorem State.clearStatus_errSub (s : State) (v : Word) : (s.clearStatus v).errSub = s.errSub := rfl
@[simp] theorem State.clearStatus_klen (s : State) (v : Word) : (s.clearStatus v).klen = s.klen := rfl
@[simp] theorem State.clearStatus_mlen (s : State) (v : Word) : (s.clearStatus v).mlen = s.mlen := rfl
@[simp] theorem State.clearStatus_llen (s : State) (v : Word) : (s.clearStatus v).llen = s.llen := rfl
@[simp] theorem State.clearStatus_n0inv (s : State) (v : Word) : (s.clearStatus v).n0inv = s.n0inv := rfl
@[simp] theorem State.clearStatus_mem (s : State) (v : Word) : (s.clearStatus v).mem = s.mem := rfl
@[simp] theorem State.clearStatus_cmdreg (s : State) (v : Word) : (s.clearStatus v).cmdreg = s.cmdreg := rfl
@[simp] theorem State.clearStatus_seedSelL (s : State) (v : Word) : (s.clearStatus v).seedSelL = s.seedSelL := rfl
@[simp] theorem State.clearStatus_rr (s : State) (v : Word) : (s.clearStatus v).rr = s.rr := rfl
@[simp] theorem State.clearStatus_rdata (s : State) (v : Word) : (s.clearStatus v).rdata = s.rdata := rfl
@[simp] theorem State.clearStatus_entropy (s : State) (v : Word) : (s.clearStatus v).entropy = s.entropy := rfl
@[simp] theorem State.clearStatus_inputs (s : State) (v : Word) : (s.clearStatus v).inputs = s.inputs := rfl

/-! ### A write to CTRL (10_state.md R25) -/

@[simp] theorem State.writeCtrl_config (s : State) (v : Word) : (s.writeCtrl v).config = s.config := rfl
@[simp] theorem State.writeCtrl_ieDone (s : State) (v : Word) : (s.writeCtrl v).ieDone = v.getLsbD 0 := rfl
@[simp] theorem State.writeCtrl_ieErr (s : State) (v : Word) : (s.writeCtrl v).ieErr = v.getLsbD 1 := rfl
@[simp] theorem State.writeCtrl_seedSel (s : State) (v : Word) : (s.writeCtrl v).seedSel = v.getLsbD 2 := rfl
@[simp] theorem State.writeCtrl_busy (s : State) (v : Word) : (s.writeCtrl v).busy = s.busy := rfl
@[simp] theorem State.writeCtrl_done (s : State) (v : Word) : (s.writeCtrl v).done = s.done := rfl
@[simp] theorem State.writeCtrl_err (s : State) (v : Word) : (s.writeCtrl v).err = s.err := rfl
@[simp] theorem State.writeCtrl_keyok (s : State) (v : Word) : (s.writeCtrl v).keyok = s.keyok := rfl
@[simp] theorem State.writeCtrl_lockv (s : State) (v : Word) : (s.writeCtrl v).lockv = s.lockv := rfl
@[simp] theorem State.writeCtrl_errCode (s : State) (v : Word) : (s.writeCtrl v).errCode = s.errCode := rfl
@[simp] theorem State.writeCtrl_errSub (s : State) (v : Word) : (s.writeCtrl v).errSub = s.errSub := rfl
@[simp] theorem State.writeCtrl_klen (s : State) (v : Word) : (s.writeCtrl v).klen = s.klen := rfl
@[simp] theorem State.writeCtrl_mlen (s : State) (v : Word) : (s.writeCtrl v).mlen = s.mlen := rfl
@[simp] theorem State.writeCtrl_llen (s : State) (v : Word) : (s.writeCtrl v).llen = s.llen := rfl
@[simp] theorem State.writeCtrl_n0inv (s : State) (v : Word) : (s.writeCtrl v).n0inv = s.n0inv := rfl
@[simp] theorem State.writeCtrl_mem (s : State) (v : Word) : (s.writeCtrl v).mem = s.mem := rfl
@[simp] theorem State.writeCtrl_cmdreg (s : State) (v : Word) : (s.writeCtrl v).cmdreg = s.cmdreg := rfl
@[simp] theorem State.writeCtrl_seedSelL (s : State) (v : Word) : (s.writeCtrl v).seedSelL = s.seedSelL := rfl
@[simp] theorem State.writeCtrl_rr (s : State) (v : Word) : (s.writeCtrl v).rr = s.rr := rfl
@[simp] theorem State.writeCtrl_rdata (s : State) (v : Word) : (s.writeCtrl v).rdata = s.rdata := rfl
@[simp] theorem State.writeCtrl_entropy (s : State) (v : Word) : (s.writeCtrl v).entropy = s.entropy := rfl
@[simp] theorem State.writeCtrl_inputs (s : State) (v : Word) : (s.writeCtrl v).inputs = s.inputs := rfl

/-! ### A lock violation (10_state.md R30) -/

@[simp] theorem State.lockViolation_config (s : State) : (s.lockViolation).config = s.config := rfl
@[simp] theorem State.lockViolation_ieDone (s : State) : (s.lockViolation).ieDone = s.ieDone := rfl
@[simp] theorem State.lockViolation_ieErr (s : State) : (s.lockViolation).ieErr = s.ieErr := rfl
@[simp] theorem State.lockViolation_seedSel (s : State) : (s.lockViolation).seedSel = s.seedSel := rfl
@[simp] theorem State.lockViolation_busy (s : State) : (s.lockViolation).busy = s.busy := rfl
@[simp] theorem State.lockViolation_done (s : State) : (s.lockViolation).done = s.done := rfl
@[simp] theorem State.lockViolation_err (s : State) : (s.lockViolation).err = s.err := rfl
@[simp] theorem State.lockViolation_keyok (s : State) : (s.lockViolation).keyok = s.keyok := rfl
@[simp] theorem State.lockViolation_lockv (s : State) : (s.lockViolation).lockv = true := rfl
@[simp] theorem State.lockViolation_errCode (s : State) : (s.lockViolation).errCode = s.errCode := rfl
@[simp] theorem State.lockViolation_errSub (s : State) : (s.lockViolation).errSub = s.errSub := rfl
@[simp] theorem State.lockViolation_klen (s : State) : (s.lockViolation).klen = s.klen := rfl
@[simp] theorem State.lockViolation_mlen (s : State) : (s.lockViolation).mlen = s.mlen := rfl
@[simp] theorem State.lockViolation_llen (s : State) : (s.lockViolation).llen = s.llen := rfl
@[simp] theorem State.lockViolation_n0inv (s : State) : (s.lockViolation).n0inv = s.n0inv := rfl
@[simp] theorem State.lockViolation_mem (s : State) : (s.lockViolation).mem = s.mem := rfl
@[simp] theorem State.lockViolation_cmdreg (s : State) : (s.lockViolation).cmdreg = s.cmdreg := rfl
@[simp] theorem State.lockViolation_seedSelL (s : State) : (s.lockViolation).seedSelL = s.seedSelL := rfl
@[simp] theorem State.lockViolation_rr (s : State) : (s.lockViolation).rr = s.rr := rfl
@[simp] theorem State.lockViolation_rdata (s : State) : (s.lockViolation).rdata = s.rdata := rfl
@[simp] theorem State.lockViolation_entropy (s : State) : (s.lockViolation).entropy = s.entropy := rfl
@[simp] theorem State.lockViolation_inputs (s : State) : (s.lockViolation).inputs = s.inputs := rfl

/-! ### Stale key constants (10_state.md R29) -/

@[simp] theorem State.clearKeyok_config (s : State) : (s.clearKeyok).config = s.config := rfl
@[simp] theorem State.clearKeyok_ieDone (s : State) : (s.clearKeyok).ieDone = s.ieDone := rfl
@[simp] theorem State.clearKeyok_ieErr (s : State) : (s.clearKeyok).ieErr = s.ieErr := rfl
@[simp] theorem State.clearKeyok_seedSel (s : State) : (s.clearKeyok).seedSel = s.seedSel := rfl
@[simp] theorem State.clearKeyok_busy (s : State) : (s.clearKeyok).busy = s.busy := rfl
@[simp] theorem State.clearKeyok_done (s : State) : (s.clearKeyok).done = s.done := rfl
@[simp] theorem State.clearKeyok_err (s : State) : (s.clearKeyok).err = s.err := rfl
@[simp] theorem State.clearKeyok_keyok (s : State) : (s.clearKeyok).keyok = false := rfl
@[simp] theorem State.clearKeyok_lockv (s : State) : (s.clearKeyok).lockv = s.lockv := rfl
@[simp] theorem State.clearKeyok_errCode (s : State) : (s.clearKeyok).errCode = s.errCode := rfl
@[simp] theorem State.clearKeyok_errSub (s : State) : (s.clearKeyok).errSub = s.errSub := rfl
@[simp] theorem State.clearKeyok_klen (s : State) : (s.clearKeyok).klen = s.klen := rfl
@[simp] theorem State.clearKeyok_mlen (s : State) : (s.clearKeyok).mlen = s.mlen := rfl
@[simp] theorem State.clearKeyok_llen (s : State) : (s.clearKeyok).llen = s.llen := rfl
@[simp] theorem State.clearKeyok_n0inv (s : State) : (s.clearKeyok).n0inv = s.n0inv := rfl
@[simp] theorem State.clearKeyok_mem (s : State) : (s.clearKeyok).mem = s.mem := rfl
@[simp] theorem State.clearKeyok_cmdreg (s : State) : (s.clearKeyok).cmdreg = s.cmdreg := rfl
@[simp] theorem State.clearKeyok_seedSelL (s : State) : (s.clearKeyok).seedSelL = s.seedSelL := rfl
@[simp] theorem State.clearKeyok_rr (s : State) : (s.clearKeyok).rr = s.rr := rfl
@[simp] theorem State.clearKeyok_rdata (s : State) : (s.clearKeyok).rdata = s.rdata := rfl
@[simp] theorem State.clearKeyok_entropy (s : State) : (s.clearKeyok).entropy = s.entropy := rfl
@[simp] theorem State.clearKeyok_inputs (s : State) : (s.clearKeyok).inputs = s.inputs := rfl

/-! ### A result slice (40_command_execution.md R114) -/

@[simp] theorem State.setBuf_config (s : State) (b : Buf) (bytes : List Byte) : (s.setBuf b bytes).config = s.config := rfl
@[simp] theorem State.setBuf_ieDone (s : State) (b : Buf) (bytes : List Byte) : (s.setBuf b bytes).ieDone = s.ieDone := rfl
@[simp] theorem State.setBuf_ieErr (s : State) (b : Buf) (bytes : List Byte) : (s.setBuf b bytes).ieErr = s.ieErr := rfl
@[simp] theorem State.setBuf_seedSel (s : State) (b : Buf) (bytes : List Byte) : (s.setBuf b bytes).seedSel = s.seedSel := rfl
@[simp] theorem State.setBuf_busy (s : State) (b : Buf) (bytes : List Byte) : (s.setBuf b bytes).busy = s.busy := rfl
@[simp] theorem State.setBuf_done (s : State) (b : Buf) (bytes : List Byte) : (s.setBuf b bytes).done = s.done := rfl
@[simp] theorem State.setBuf_err (s : State) (b : Buf) (bytes : List Byte) : (s.setBuf b bytes).err = s.err := rfl
@[simp] theorem State.setBuf_keyok (s : State) (b : Buf) (bytes : List Byte) : (s.setBuf b bytes).keyok = s.keyok := rfl
@[simp] theorem State.setBuf_lockv (s : State) (b : Buf) (bytes : List Byte) : (s.setBuf b bytes).lockv = s.lockv := rfl
@[simp] theorem State.setBuf_errCode (s : State) (b : Buf) (bytes : List Byte) : (s.setBuf b bytes).errCode = s.errCode := rfl
@[simp] theorem State.setBuf_errSub (s : State) (b : Buf) (bytes : List Byte) : (s.setBuf b bytes).errSub = s.errSub := rfl
@[simp] theorem State.setBuf_klen (s : State) (b : Buf) (bytes : List Byte) : (s.setBuf b bytes).klen = s.klen := rfl
@[simp] theorem State.setBuf_mlen (s : State) (b : Buf) (bytes : List Byte) : (s.setBuf b bytes).mlen = s.mlen := rfl
@[simp] theorem State.setBuf_llen (s : State) (b : Buf) (bytes : List Byte) : (s.setBuf b bytes).llen = s.llen := rfl
@[simp] theorem State.setBuf_n0inv (s : State) (b : Buf) (bytes : List Byte) : (s.setBuf b bytes).n0inv = s.n0inv := rfl
@[simp] theorem State.setBuf_mem (s : State) (b : Buf) (bytes : List Byte) : (s.setBuf b bytes).mem = s.mem.writeBytes b.base bytes := rfl
@[simp] theorem State.setBuf_cmdreg (s : State) (b : Buf) (bytes : List Byte) : (s.setBuf b bytes).cmdreg = s.cmdreg := rfl
@[simp] theorem State.setBuf_seedSelL (s : State) (b : Buf) (bytes : List Byte) : (s.setBuf b bytes).seedSelL = s.seedSelL := rfl
@[simp] theorem State.setBuf_rr (s : State) (b : Buf) (bytes : List Byte) : (s.setBuf b bytes).rr = s.rr := rfl
@[simp] theorem State.setBuf_rdata (s : State) (b : Buf) (bytes : List Byte) : (s.setBuf b bytes).rdata = s.rdata := rfl
@[simp] theorem State.setBuf_entropy (s : State) (b : Buf) (bytes : List Byte) : (s.setBuf b bytes).entropy = s.entropy := rfl
@[simp] theorem State.setBuf_inputs (s : State) (b : Buf) (bytes : List Byte) : (s.setBuf b bytes).inputs = s.inputs := rfl

/-! ### A Montgomery-unit result (41_montgomery.md R139) -/

@[simp] theorem State.setResult_config (s : State) (v : Nat) : (s.setResult v).config = s.config := rfl
@[simp] theorem State.setResult_ieDone (s : State) (v : Nat) : (s.setResult v).ieDone = s.ieDone := rfl
@[simp] theorem State.setResult_ieErr (s : State) (v : Nat) : (s.setResult v).ieErr = s.ieErr := rfl
@[simp] theorem State.setResult_seedSel (s : State) (v : Nat) : (s.setResult v).seedSel = s.seedSel := rfl
@[simp] theorem State.setResult_busy (s : State) (v : Nat) : (s.setResult v).busy = s.busy := rfl
@[simp] theorem State.setResult_done (s : State) (v : Nat) : (s.setResult v).done = s.done := rfl
@[simp] theorem State.setResult_err (s : State) (v : Nat) : (s.setResult v).err = s.err := rfl
@[simp] theorem State.setResult_keyok (s : State) (v : Nat) : (s.setResult v).keyok = s.keyok := rfl
@[simp] theorem State.setResult_lockv (s : State) (v : Nat) : (s.setResult v).lockv = s.lockv := rfl
@[simp] theorem State.setResult_errCode (s : State) (v : Nat) : (s.setResult v).errCode = s.errCode := rfl
@[simp] theorem State.setResult_errSub (s : State) (v : Nat) : (s.setResult v).errSub = s.errSub := rfl
@[simp] theorem State.setResult_klen (s : State) (v : Nat) : (s.setResult v).klen = s.klen := rfl
@[simp] theorem State.setResult_mlen (s : State) (v : Nat) : (s.setResult v).mlen = s.mlen := rfl
@[simp] theorem State.setResult_llen (s : State) (v : Nat) : (s.setResult v).llen = s.llen := rfl
@[simp] theorem State.setResult_n0inv (s : State) (v : Nat) : (s.setResult v).n0inv = s.n0inv := rfl
@[simp] theorem State.setResult_mem (s : State) (v : Nat) : (s.setResult v).mem = s.mem.writeBytes Buf.rbuf.base (beBytes v s.k) := rfl
@[simp] theorem State.setResult_cmdreg (s : State) (v : Nat) : (s.setResult v).cmdreg = s.cmdreg := rfl
@[simp] theorem State.setResult_seedSelL (s : State) (v : Nat) : (s.setResult v).seedSelL = s.seedSelL := rfl
@[simp] theorem State.setResult_rr (s : State) (v : Nat) : (s.setResult v).rr = s.rr := rfl
@[simp] theorem State.setResult_rdata (s : State) (v : Nat) : (s.setResult v).rdata = s.rdata := rfl
@[simp] theorem State.setResult_entropy (s : State) (v : Nat) : (s.setResult v).entropy = s.entropy := rfl
@[simp] theorem State.setResult_inputs (s : State) (v : Nat) : (s.setResult v).inputs = s.inputs := rfl

/-! ### A port word (20_memory.md R63) -/

@[simp] theorem State.writeWord_config (s : State) (addr : Nat) (v : Word) : (s.writeWord addr v).config = s.config := rfl
@[simp] theorem State.writeWord_ieDone (s : State) (addr : Nat) (v : Word) : (s.writeWord addr v).ieDone = s.ieDone := rfl
@[simp] theorem State.writeWord_ieErr (s : State) (addr : Nat) (v : Word) : (s.writeWord addr v).ieErr = s.ieErr := rfl
@[simp] theorem State.writeWord_seedSel (s : State) (addr : Nat) (v : Word) : (s.writeWord addr v).seedSel = s.seedSel := rfl
@[simp] theorem State.writeWord_busy (s : State) (addr : Nat) (v : Word) : (s.writeWord addr v).busy = s.busy := rfl
@[simp] theorem State.writeWord_done (s : State) (addr : Nat) (v : Word) : (s.writeWord addr v).done = s.done := rfl
@[simp] theorem State.writeWord_err (s : State) (addr : Nat) (v : Word) : (s.writeWord addr v).err = s.err := rfl
@[simp] theorem State.writeWord_keyok (s : State) (addr : Nat) (v : Word) : (s.writeWord addr v).keyok = s.keyok := rfl
@[simp] theorem State.writeWord_lockv (s : State) (addr : Nat) (v : Word) : (s.writeWord addr v).lockv = s.lockv := rfl
@[simp] theorem State.writeWord_errCode (s : State) (addr : Nat) (v : Word) : (s.writeWord addr v).errCode = s.errCode := rfl
@[simp] theorem State.writeWord_errSub (s : State) (addr : Nat) (v : Word) : (s.writeWord addr v).errSub = s.errSub := rfl
@[simp] theorem State.writeWord_klen (s : State) (addr : Nat) (v : Word) : (s.writeWord addr v).klen = s.klen := rfl
@[simp] theorem State.writeWord_mlen (s : State) (addr : Nat) (v : Word) : (s.writeWord addr v).mlen = s.mlen := rfl
@[simp] theorem State.writeWord_llen (s : State) (addr : Nat) (v : Word) : (s.writeWord addr v).llen = s.llen := rfl
@[simp] theorem State.writeWord_n0inv (s : State) (addr : Nat) (v : Word) : (s.writeWord addr v).n0inv = s.n0inv := rfl
@[simp] theorem State.writeWord_mem (s : State) (addr : Nat) (v : Word) : (s.writeWord addr v).mem = s.mem.writeBytes addr (bytesOfWord v) := rfl
@[simp] theorem State.writeWord_cmdreg (s : State) (addr : Nat) (v : Word) : (s.writeWord addr v).cmdreg = s.cmdreg := rfl
@[simp] theorem State.writeWord_seedSelL (s : State) (addr : Nat) (v : Word) : (s.writeWord addr v).seedSelL = s.seedSelL := rfl
@[simp] theorem State.writeWord_rr (s : State) (addr : Nat) (v : Word) : (s.writeWord addr v).rr = s.rr := rfl
@[simp] theorem State.writeWord_rdata (s : State) (addr : Nat) (v : Word) : (s.writeWord addr v).rdata = s.rdata := rfl
@[simp] theorem State.writeWord_entropy (s : State) (addr : Nat) (v : Word) : (s.writeWord addr v).entropy = s.entropy := rfl
@[simp] theorem State.writeWord_inputs (s : State) (addr : Nat) (v : Word) : (s.writeWord addr v).inputs = s.inputs := rfl

/-! ### An accepted command with the engine's turn next -/

@[simp] theorem State.withCommand_config (s : State) (w : Word) : (s.withCommand w).config = s.config := rfl
@[simp] theorem State.withCommand_ieDone (s : State) (w : Word) : (s.withCommand w).ieDone = s.ieDone := rfl
@[simp] theorem State.withCommand_ieErr (s : State) (w : Word) : (s.withCommand w).ieErr = s.ieErr := rfl
@[simp] theorem State.withCommand_seedSel (s : State) (w : Word) : (s.withCommand w).seedSel = s.seedSel := rfl
@[simp] theorem State.withCommand_busy (s : State) (w : Word) : (s.withCommand w).busy = true := rfl
@[simp] theorem State.withCommand_done (s : State) (w : Word) : (s.withCommand w).done = false := rfl
@[simp] theorem State.withCommand_err (s : State) (w : Word) : (s.withCommand w).err = false := rfl
@[simp] theorem State.withCommand_keyok (s : State) (w : Word) : (s.withCommand w).keyok = s.keyok := rfl
@[simp] theorem State.withCommand_lockv (s : State) (w : Word) : (s.withCommand w).lockv = s.lockv := rfl
@[simp] theorem State.withCommand_errCode (s : State) (w : Word) : (s.withCommand w).errCode = 0#8 := rfl
@[simp] theorem State.withCommand_errSub (s : State) (w : Word) : (s.withCommand w).errSub = 0#8 := rfl
@[simp] theorem State.withCommand_klen (s : State) (w : Word) : (s.withCommand w).klen = s.klen := rfl
@[simp] theorem State.withCommand_mlen (s : State) (w : Word) : (s.withCommand w).mlen = s.mlen := rfl
@[simp] theorem State.withCommand_llen (s : State) (w : Word) : (s.withCommand w).llen = s.llen := rfl
@[simp] theorem State.withCommand_n0inv (s : State) (w : Word) : (s.withCommand w).n0inv = s.n0inv := rfl
@[simp] theorem State.withCommand_mem (s : State) (w : Word) : (s.withCommand w).mem = s.mem := rfl
@[simp] theorem State.withCommand_cmdreg (s : State) (w : Word) : (s.withCommand w).cmdreg = w := rfl
@[simp] theorem State.withCommand_seedSelL (s : State) (w : Word) : (s.withCommand w).seedSelL = s.seedSel := rfl
@[simp] theorem State.withCommand_rr (s : State) (w : Word) : (s.withCommand w).rr = s.rr := rfl
@[simp] theorem State.withCommand_rdata (s : State) (w : Word) : (s.withCommand w).rdata = s.rdata := rfl
@[simp] theorem State.withCommand_entropy (s : State) (w : Word) : (s.withCommand w).entropy = s.entropy := rfl
@[simp] theorem State.withCommand_inputs (s : State) (w : Word) : (s.withCommand w).inputs = Input.engine :: s.inputs := rfl

end Sys2Proof.Machine
end

