-- ==== Sys2Proof/Laws/Memory.lean ====
section
/-! SUPPORT. The laws of memory: what a write reads as, that the canonical form is kept, and that it determines the
memory. Later proofs cite these and never unfold a memory operation. -/

namespace Sys2Proof.Machine

namespace Memory

/-- The canonical form, read off the head: what the head's cell must be, and that the rest lies above it. -/
theorem wf_cons (c : Host.Cell) (m : Memory) :
    Memory.wf (c :: m) = true ↔ c.2 ≠ Memory.unlisted ∧ (∀ d ∈ m, c.1 < d.1) ∧ Memory.wf m = true := by
  induction m generalizing c with
  | nil => simp [Memory.wf]
  | cons d m ih =>
    simp only [Memory.wf, Bool.and_eq_true, bne_iff_ne, decide_eq_true_eq, List.mem_cons, forall_eq_or_imp]
    constructor
    · rintro ⟨⟨hc, hcd⟩, hd⟩
      obtain ⟨-, hlow, -⟩ := (ih d).1 hd
      exact ⟨hc, ⟨hcd, fun e he => hcd.trans (hlow e he)⟩, hd⟩
    · rintro ⟨hc, ⟨hcd, -⟩, hd⟩
      exact ⟨⟨hc, hcd⟩, hd⟩

@[simp] theorem wf_nil : Memory.wf [] = true := rfl

@[simp] theorem read_nil (a : Nat) : Memory.read [] a = Memory.unlisted := rfl

theorem read_list_cons (c : Host.Cell) (m : Memory) (a : Nat) :
    Memory.read (c :: m) a = if c.1 = a then c.2 else Memory.read m a := rfl

/-- An address below every listed one reads as unlisted. -/
theorem read_below (m : Memory) (a : Nat) (h : ∀ d ∈ m, a < d.1) : Memory.read m a = Memory.unlisted := by
  induction m with
  | nil => rfl
  | cons d m ih =>
    have hd : a < d.1 := h d (List.mem_cons_self ..)
    simp [read_list_cons, Nat.ne_of_gt hd, ih fun e he => h e (List.mem_cons_of_mem _ he)]

theorem read_cons_other (m : Memory) {a x : Nat} (v : Byte) (h : x ≠ a) :
    Memory.read (Memory.cons a v m) x = Memory.read m x := by
  unfold Memory.cons
  split
  · rfl
  · simp [read_list_cons, Ne.symm h]

theorem read_cons_self (m : Memory) (a : Nat) (v : Byte) (h : ∀ d ∈ m, a < d.1) :
    Memory.read (Memory.cons a v m) a = v := by
  unfold Memory.cons
  split
  · next hv => rw [read_below m a h, hv]
  · simp [read_list_cons]

/-- A write leaves every other address alone, in any memory. -/
theorem read_write_other (m : Memory) {a x : Nat} (v : Byte) (h : x ≠ a) :
    (m.write a v).read x = m.read x := by
  induction m with
  | nil => exact read_cons_other [] v h
  | cons c m ih =>
    unfold Memory.write
    split
    · exact read_cons_other _ v h
    · split
      · next heq => rw [read_cons_other _ v h, read_list_cons, if_neg (by omega)]
      · rw [read_list_cons, read_list_cons, ih]

/-- In a canonical memory, a write reads back. -/
theorem read_write_self (m : Memory) (a : Nat) (v : Byte) (hwf : m.wf = true) : (m.write a v).read a = v := by
  induction m with
  | nil => exact read_cons_self [] a v (by simp)
  | cons c m ih =>
    obtain ⟨-, hlow, hm⟩ := (wf_cons c m).1 hwf
    unfold Memory.write
    split
    · next hlt =>
      refine read_cons_self _ a v ?_
      rintro d (_ | ⟨_, hd⟩)
      · exact hlt
      · exact hlt.trans (hlow d hd)
    · split
      · next heq => exact read_cons_self _ a v (heq ▸ hlow)
      · next hne => rw [read_list_cons, if_neg (Ne.symm hne), ih hm]

theorem read_write (m : Memory) (a x : Nat) (v : Byte) (hwf : m.wf = true) :
    (m.write a v).read x = if x = a then v else m.read x := by
  split
  · next h => rw [h, read_write_self m a v hwf]
  · next h => exact read_write_other m v h

/-- A write lists no address but the old ones and the one written. -/
theorem mem_write {m : Memory} {a : Nat} {v : Byte} {c : Host.Cell} (h : c ∈ m.write a v) : c ∈ m ∨ c.1 = a := by
  have hcons : ∀ {m' : Memory}, c ∈ Memory.cons a v m' → c ∈ m' ∨ c.1 = a := by
    intro m' hc
    unfold Memory.cons at hc
    split at hc
    · exact .inl hc
    · rcases List.mem_cons.1 hc with rfl | hc
      · exact .inr rfl
      · exact .inl hc
  induction m with
  | nil => exact hcons h
  | cons d m ih =>
    unfold Memory.write at h
    split at h
    · exact hcons h
    · split at h
      · exact (hcons h).imp_left (List.mem_cons_of_mem _)
      · rcases List.mem_cons.1 h with rfl | h
        · exact .inl (List.mem_cons_self ..)
        · exact (ih h).imp_left (List.mem_cons_of_mem _)

theorem cons_wf (m : Memory) (a : Nat) (v : Byte) (hlow : ∀ d ∈ m, a < d.1) (hm : m.wf = true) :
    (Memory.cons a v m).wf = true := by
  unfold Memory.cons
  split
  · exact hm
  · next hv => exact (wf_cons _ _).2 ⟨hv, hlow, hm⟩

/-- A write keeps the canonical form. -/
theorem write_wf (m : Memory) (a : Nat) (v : Byte) (hwf : m.wf = true) : (m.write a v).wf = true := by
  induction m with
  | nil => exact cons_wf [] a v (by simp) rfl
  | cons c m ih =>
    obtain ⟨hc, hlow, hm⟩ := (wf_cons c m).1 hwf
    unfold Memory.write
    split
    · next hlt =>
      refine cons_wf _ a v ?_ hwf
      rintro d (_ | ⟨_, hd⟩)
      · exact hlt
      · exact hlt.trans (hlow d hd)
    · split
      · next heq => exact cons_wf _ a v (heq ▸ hlow) hm
      · next hge hne =>
        refine (wf_cons _ _).2 ⟨hc, fun d hd => ?_, ih hm⟩
        rcases mem_write hd with hd | hd
        · exact hlow d hd
        · omega

/-- Canonical memories that read alike are equal data. -/
theorem ext_read {m m' : Memory} (hm : m.wf = true) (hm' : m'.wf = true) (h : ∀ a, m.read a = m'.read a) : m = m' := by
  induction m generalizing m' with
  | nil =>
    cases m' with
    | nil => rfl
    | cons c m' =>
      obtain ⟨hc, -, -⟩ := (wf_cons c m').1 hm'
      exact absurd (by simpa [read_list_cons] using (h c.1).symm) hc
  | cons c m ih =>
    obtain ⟨hc, hlow, hmt⟩ := (wf_cons c m).1 hm
    cases m' with
    | nil => exact absurd (by simpa [read_list_cons] using h c.1) hc
    | cons d m' =>
      obtain ⟨hd, hlow', hmt'⟩ := (wf_cons d m').1 hm'
      have hkey : c.1 = d.1 := by
        rcases Nat.lt_trichotomy c.1 d.1 with hlt | heq | hgt
        · refine absurd ?_ hc
          have hb := h c.1
          rw [read_list_cons, if_pos rfl, read_below] at hb
          · exact hb
          · rintro e (_ | ⟨_, he⟩)
            · exact hlt
            · exact hlt.trans (hlow' e he)
        · exact heq
        · refine absurd ?_ hd
          have hb := (h d.1).symm
          rw [read_list_cons, if_pos rfl, read_below] at hb
          · exact hb
          · rintro e (_ | ⟨_, he⟩)
            · exact hgt
            · exact hgt.trans (hlow e he)
      have hval : c.2 = d.2 := by simpa [read_list_cons, hkey] using h c.1
      have hrest : m = m' := by
        refine ih hmt hmt' fun a => ?_
        by_cases ha : c.1 = a
        · rw [read_below m a (ha ▸ hlow), read_below m' a (by rw [← ha, hkey]; exact hlow')]
        · simpa [read_list_cons, ha, hkey ▸ ha] using h a
      rw [hrest, Prod.ext hkey hval]

/-! ### Byte strings -/

@[simp] theorem readBytes_length (m : Memory) (a len : Nat) : (m.readBytes a len).length = len := by
  simp [readBytes]

theorem readBytes_getElem (m : Memory) (a len i : Nat) (h : i < (m.readBytes a len).length) :
    (m.readBytes a len)[i] = m.read (a + i) := by simp [readBytes]

/-- A byte-string write leaves every address outside its slice alone, in any memory. -/
theorem read_writeBytes_outside (m : Memory) (a x : Nat) (bs : List Byte) (h : x < a ∨ a + bs.length ≤ x) :
    (m.writeBytes a bs).read x = m.read x := by
  induction bs generalizing m a with
  | nil => rfl
  | cons b bs ih =>
    simp only [List.length_cons] at h
    rw [writeBytes, ih _ _ (by omega), read_write_other m b (by omega)]

theorem writeBytes_wf (m : Memory) (a : Nat) (bs : List Byte) (hwf : m.wf = true) : (m.writeBytes a bs).wf = true := by
  induction bs generalizing m a with
  | nil => exact hwf
  | cons b bs ih => exact ih _ _ (write_wf m a b hwf)

/-- In a canonical memory, byte `i` of a byte-string write reads back. -/
theorem read_writeBytes_inside (m : Memory) (a : Nat) (bs : List Byte) (hwf : m.wf = true) (i : Nat)
    (h : i < bs.length) : (m.writeBytes a bs).read (a + i) = bs[i] := by
  induction bs generalizing m a i with
  | nil => simp at h
  | cons b bs ih =>
    cases i with
    | zero => rw [writeBytes, read_writeBytes_outside _ _ _ _ (by omega)]; exact read_write_self m a b hwf
    | succ i =>
      have := ih (m.write a b) (a + 1) (write_wf m a b hwf) i (by simpa using h)
      rw [writeBytes, show a + (i + 1) = a + 1 + i by omega, this, List.getElem_cons_succ]

theorem readBytes_writeBytes_self (m : Memory) (a : Nat) (bs : List Byte) (hwf : m.wf = true) :
    (m.writeBytes a bs).readBytes a bs.length = bs := by
  refine List.ext_getElem (by simp) fun i _ h => ?_
  rw [readBytes_getElem, read_writeBytes_inside m a bs hwf i h]

/-- A slice outside the one written reads as before. -/
theorem readBytes_writeBytes_outside (m : Memory) (a x len : Nat) (bs : List Byte)
    (h : x + len ≤ a ∨ a + bs.length ≤ x) : (m.writeBytes a bs).readBytes x len = m.readBytes x len := by
  simp only [readBytes, List.map_inj_left, List.mem_range]
  exact fun i hi => read_writeBytes_outside m a (x + i) bs (by omega)

/-- A byte-string write lists no address but the old ones and those of its slice. -/
theorem mem_writeBytes {m : Memory} {a : Nat} {bs : List Byte} {c : Host.Cell} (h : c ∈ m.writeBytes a bs) :
    c ∈ m ∨ (a ≤ c.1 ∧ c.1 < a + bs.length) := by
  induction bs generalizing m a with
  | nil => exact .inl h
  | cons b bs ih =>
    simp only [List.length_cons]
    rcases ih h with h | h
    · rcases mem_write h with h | h
      · exact .inl h
      · exact .inr (by omega)
    · exact .inr (by omega)

/-! ### The memory after a reset -/

theorem afterReset_wf (c : Config) (contents : List Host.Cell) : (afterReset c contents).wf = true := by
  unfold afterReset
  suffices h : ∀ m : Memory, m.wf = true →
      (contents.foldl (fun m cell => if largeByte c cell.1 then m.write cell.1 cell.2 else m) m).wf = true from h [] rfl
  induction contents with
  | nil => exact fun m hm => hm
  | cons cell contents ih =>
    intro m hm
    simp only [List.foldl_cons]
    split
    · exact ih _ (write_wf m _ _ hm)
    · exact ih _ hm

theorem mem_afterReset {c : Config} {contents : List Host.Cell} {d : Host.Cell} (h : d ∈ afterReset c contents) :
    largeByte c d.1 = true := by
  unfold afterReset at h
  suffices hs : ∀ m : Memory, (∀ e ∈ m, largeByte c e.1 = true) →
      ∀ e ∈ contents.foldl (fun m cell => if largeByte c cell.1 then m.write cell.1 cell.2 else m) m,
        largeByte c e.1 = true from hs [] (by simp) d h
  clear h
  induction contents with
  | nil => exact fun m hm => hm
  | cons cell contents ih =>
    intro m hm
    simp only [List.foldl_cons]
    split
    · next hl =>
      refine ih _ fun e he => ?_
      rcases mem_write he with he | he
      · exact hm e he
      · exact he ▸ hl
    · exact ih _ hm

end Memory

/-! ### Buffers -/

@[simp] theorem Buf.base_nbuf : Buf.base .nbuf = 0x0400 := rfl
@[simp] theorem Buf.base_ebuf : Buf.base .ebuf = 0x0800 := rfl
@[simp] theorem Buf.base_abuf : Buf.base .abuf = 0x0C00 := rfl
@[simp] theorem Buf.base_bbuf : Buf.base .bbuf = 0x1000 := rfl
@[simp] theorem Buf.base_rbuf : Buf.base .rbuf = 0x1400 := rfl
@[simp] theorem Buf.base_mbuf : Buf.base .mbuf = 0x1800 := rfl
@[simp] theorem Buf.base_lbuf : Buf.base .lbuf = 0x1C00 := rfl
@[simp] theorem Buf.base_seed : Buf.base .seed = 0x0040 := rfl
@[simp] theorem Buf.base_digest : Buf.base .digest = 0x0060 := rfl

@[simp] theorem State.buf_length (s : State) (b : Buf) (len : Nat) : (s.buf b len).length = len :=
  Memory.readBytes_length ..

/-- A slice depends on the memory only. -/
theorem State.buf_congr {s t : State} (h : s.mem = t.mem) (b : Buf) (len : Nat) : s.buf b len = t.buf b len := by
  simp [State.buf, h]

theorem State.buf_setBuf_self (s : State) (b : Buf) (bytes : List Byte) (hwf : s.mem.wf = true) :
    (s.setBuf b bytes).buf b bytes.length = bytes :=
  Memory.readBytes_writeBytes_self _ _ _ hwf

end Sys2Proof.Machine
end

