-- ==== Sys2Proof/Laws/Hash.lean ====
section
/-! SUPPORT. Lengths of the hash unit's functions (42_hash_mgf1.md R160, R161, R166). -/

namespace Sys2Proof.Machine

@[simp] theorem Sha.bytes_length (s : Sha) : s.bytes.length = 32 := by simp [Sha.bytes]

@[simp] theorem sha256_length (msg : List Byte) : (sha256 msg).length = 32 := by simp [sha256]

/-- The padded message is a whole number of 64-byte blocks (42_hash_mgf1.md R161). -/
theorem shaPad_length_mod (msg : List Byte) : (shaPad msg).length % 64 = 0 := by
  simp only [shaPad, List.length_append, List.length_singleton, zeroBytes_length, beBytes_length]
  omega

theorem mgf1Blocks_length (seed : List Byte) (count : Nat) : (mgf1Blocks seed count).length = 32 * count := by
  simp [mgf1Blocks, List.length_flatMap, Nat.mul_comm]

@[simp] theorem mgf1Mask_length (seed : List Byte) (len : Nat) : (mgf1Mask seed len).length = len := by
  simp only [mgf1Mask, List.length_take, mgf1Blocks_length, Config.hLen]
  omega

theorem mgf1Blocks_succ (seed : List Byte) (count : Nat) :
    mgf1Blocks seed (count + 1) = mgf1Blocks seed count ++ sha256 (seed ++ beBytes count 4) := by
  simp [mgf1Blocks, List.range_succ]

end Sys2Proof.Machine
end

