-- ==== Sys2Proof/Laws/Oaep.lean ====
section
/-! SUPPORT. Lengths and small facts of the OAEP unit's functions (43_oaep.md R180-R183). -/

namespace Sys2Proof.Machine

/-- `DB` has `k - h - 1` bytes (43_oaep.md R180). -/
theorem oaepDataBlock_length (msg : List Byte) (k : Nat) (label : List Byte) (h : msg.length + 66 ≤ k) :
    (oaepDataBlock msg k label).length = k - 33 := by
  simp only [oaepDataBlock, List.length_append, sha256_length, zeroBytes_length, List.length_singleton, Config.hLen]
  omega

/-- `EM` has exactly `k` bytes (43_oaep.md R180). -/
theorem oaepEncode_length (msg : List Byte) (k : Nat) (label seed : List Byte) (h : msg.length + 66 ≤ k)
    (hs : seed.length = 32) : (oaepEncode msg k label seed).length = k := by
  simp only [oaepEncode, List.length_append, List.length_singleton, xorBytes_length, mgf1Mask_length,
    oaepDataBlock_length msg k label h, hs, Config.hLen]
  omega

/-- The scan skips zero bytes (43_oaep.md R183). -/
theorem separatorScan_zeros (c : Nat) (rest : List Byte) : separatorScan (zeroBytes c ++ rest) = separatorScan rest := by
  induction c with
  | zero => rfl
  | succ c ih => simpa [zeroBytes, List.replicate_succ, separatorScan] using ih

/-- A message the scan finds is a proper end of what was scanned. -/
theorem separatorScan_length {bs m : List Byte} (h : separatorScan bs = .msg m) : m.length < bs.length := by
  induction bs with
  | nil => simp [separatorScan] at h
  | cons b bs ih =>
    unfold separatorScan at h
    split at h
    · cases h; simp
    · split at h
      · cases h
      · exact (ih h).trans (by simp)

/-- The scan fails with sub-code 3 or 4 only (60_exceptions.md R222). -/
theorem separatorScan_fail {bs : List Byte} {sub : BitVec 8} (h : separatorScan bs = .fail sub) :
    sub = 3#8 ∨ sub = 4#8 := by
  induction bs with
  | nil => cases h; exact .inr rfl
  | cons b bs ih =>
    unfold separatorScan at h
    split at h
    · cases h
    · split at h
      · cases h; exact .inl rfl
      · exact ih h

/-- Decoding fails with sub-codes 1 to 5 only (60_exceptions.md R222). -/
theorem oaepDecode_fail {em : List Byte} {k : Nat} {label : List Byte} {sub : BitVec 8}
    (h : oaepDecode em k label = .fail sub) : sub = 1#8 ∨ sub = 2#8 ∨ sub = 3#8 ∨ sub = 4#8 ∨ sub = 5#8 := by
  unfold oaepDecode at h
  split at h
  · cases h; simp
  · dsimp only at h
    split at h
    · cases h; simp
    · generalize hsc : separatorScan _ = r at h
      cases r with
      | msg m =>
        simp only [checkLeading] at h
        split at h
        · cases h; simp
        · cases h
      | fail s =>
        cases h
        rcases separatorScan_fail hsc with rfl | rfl <;> simp

/-- A decoded message is shorter than the block (43_oaep.md R184). -/
theorem oaepDecode_msg_length {em : List Byte} {k : Nat} {label m : List Byte} (hem : em.length = k)
    (h : oaepDecode em k label = .msg m) : m.length + 66 ≤ k := by
  unfold oaepDecode at h
  split at h
  · cases h
  · next hk =>
    dsimp only at h
    split at h
    · cases h
    · generalize hsc : separatorScan _ = r at h
      cases r with
      | msg m' =>
        simp only [checkLeading] at h
        split at h
        · cases h
        · cases h
          have hlen := separatorScan_length hsc
          have hdb : (oaepUnmask em k).length ≤ k - 33 := by
            simp only [oaepUnmask, xorBytes_length, slice_length, Config.hLen, hem]; omega
          simp only [List.length_drop, Config.hLen] at hlen hk
          omega
      | fail s => cases h

end Sys2Proof.Machine
end

