-- ==== Sys2Proof/Laws/Exec.lean ====
section
/-! SUPPORT. What a command can do, said once: `exec` is `complete` of the command's result, and one inversion lemma per
result. Later proofs cite these instead of unfolding a meaning. -/

namespace Sys2Proof.Machine

/-- `Exec(c)` for a decoded command (40_command_execution.md R113). -/
def commandResult : Instr → State → CmdResult
  | .nop, s => .ok s
  | .minit, s => minit s
  | .montmul sa sb, s =>
    match operandBuf sa, operandBuf sb with
    | some a, some b => montmul a b s
    | _, _ => illegalCommand
  | .modmul sa sb, s =>
    match operandBuf sa, operandBuf sb with
    | some a, some b => modmul a b s
    | _, _ => illegalCommand
  | .modexp sa, s =>
    match operandBuf sa with
    | some a => modexp a s
    | none => illegalCommand
  | .hash sa, s =>
    match hashBuf sa with
    | some b => hash b s
    | none => illegalCommand
  | .mgf1 len, s => mgf1 len s
  | .oaepenc, s => oaepenc s
  | .oaepdec sa, s =>
    match operandBuf sa with
    | some b => oaepdec b s
    | none => illegalCommand

theorem exec_eq_complete (i : Instr) (s : State) : exec i s = complete s (commandResult i s) := by
  cases i <;> rfl

/-- The three ways a completion step ends (40_command_execution.md R112). -/
theorem complete_next {s t : State} {r : CmdResult} (h : complete s r = .next t) :
    (∃ w, r = .ok w ∧ t = w.commit) ∨ (∃ c sub, r = .err c sub ∧ t = s.raiseError c sub) ∨ (r = .pending ∧ t = s) := by
  cases r with
  | ok w => cases h; exact .inl ⟨w, rfl, rfl⟩
  | err c sub => cases h; exact .inr (.inl ⟨c, sub, rfl, rfl⟩)
  | pending => cases h; exact .inr (.inr ⟨rfl, rfl⟩)

/-- A completion step always answers a next state. -/
theorem complete_total (s : State) (r : CmdResult) : ∃ t, complete s r = .next t := by
  cases r <;> exact ⟨_, rfl⟩

@[simp] theorem illegalCommand_eq : illegalCommand = .err .opcode 0#8 := rfl

/-! ### Selectors -/

/-- The buffers an operand selector names (30_encoding.md R94). -/
theorem operandBuf_some {x : Selector} {b : Buf} (h : operandBuf x = some b) :
    (x = 0#4 ∧ b = .abuf) ∨ (x = 1#4 ∧ b = .bbuf) ∨ (x = 2#4 ∧ b = .rbuf) := by
  cases b <;> revert x <;> decide

theorem operandBuf_none {x : Selector} (h : operandBuf x = none) : operandSelector x = false := by
  revert h; revert x; decide

/-- The buffers a HASH selector names (30_encoding.md R94). -/
theorem hashBuf_some {x : Selector} {b : Buf} (h : hashBuf x = some b) :
    (x = 3#4 ∧ b = .mbuf) ∨ (x = 4#4 ∧ b = .lbuf) := by
  cases b <;> revert x <;> decide

theorem hashBuf_none {x : Selector} (h : hashBuf x = none) : hashSelector x = false := by
  revert h; revert x; decide

/-! ### Successful results -/

theorem minit_ok {s w : State} (h : minit s = .ok w) :
    s.k ≠ 0 ∧ s.k ≤ s.config.kmax ∧ s.mem.read Buf.nbuf.base ≠ 0#8 ∧
      (s.mem.read (Buf.nbuf.base + (s.k - 1))).getLsbD 0 = true ∧ 3 ≤ s.modulus ∧
      w = { s with
        n0inv := BitVec.ofNat 32 (negInvWord s.modulus), rr := radixSquared s.modulus s.k, keyok := true } := by
  unfold minit at h
  split at h
  · cases h
  · next h1 =>
    split at h
    · cases h
    · next h2 =>
      cases h
      simp only [not_or, not_lt, Bool.not_eq_false] at h1 h2
      exact ⟨h1.1, h1.2, h2.1, h2.2.1, h2.2.2, rfl⟩

theorem montmul_ok {a b : Buf} {s w : State} (h : montmul a b s = .ok w) :
    s.keyok = true ∧ s.operand a < s.modulus ∧ s.operand b < s.modulus ∧
      w = s.setResult (montMul (s.operand a) (s.operand b) s.modulus s.k) := by
  unfold montmul at h
  split at h
  · cases h
  · next h1 =>
    split at h
    · cases h
    · next h2 =>
      cases h
      simp only [not_or, not_le] at h2
      exact ⟨by simpa using h1, h2.1, h2.2, rfl⟩

theorem modmul_ok {a b : Buf} {s w : State} (h : modmul a b s = .ok w) :
    s.keyok = true ∧ w = s.setResult (s.operand a * s.operand b % s.modulus) := by
  unfold modmul at h
  split at h
  · cases h
  · next h1 => cases h; exact ⟨by simpa using h1, rfl⟩

theorem modexp_ok {a : Buf} {s w : State} (h : modexp a s = .ok w) :
    s.keyok = true ∧ w = s.setResult (s.operand a ^ s.exponent % s.modulus) := by
  unfold modexp at h
  split at h
  · cases h
  · next h1 => cases h; exact ⟨by simpa using h1, by rw [powMod_eq]⟩

theorem hash_ok {b : Buf} {s w : State} (h : hash b s = .ok w) :
    s.lengthOf b ≤ s.bufSize b ∧ w = s.setBuf .digest (sha256 (s.buf b (s.lengthOf b))) := by
  unfold hash at h
  split at h
  · cases h
  · next h1 => cases h; exact ⟨by simpa using h1, rfl⟩

theorem mgf1_ok {len : Half} {s w : State} (h : mgf1 len s = .ok w) :
    s.mlen.toNat ≤ s.config.kmax ∧ len.toNat ≤ s.config.kmax ∧
      w = s.setBuf .rbuf (mgf1Mask s.message len.toNat) := by
  unfold mgf1 at h
  split at h
  · cases h
  · next h1 => cases h; simp only [not_or, not_lt] at h1; exact ⟨h1.1, h1.2, rfl⟩

/-- The seed of OAEPENC: SEED itself, or 32 bytes of the entropy port, which SEED then holds (43_oaep.md R186). -/
theorem oaepSeed_some {s t : State} {seed : List Byte} (h : s.oaepSeed = some (seed, t)) :
    (s.seedSelL = true ∧ seed = s.buf .seed 32 ∧ t = s) ∨
      (s.seedSelL = false ∧ 32 ≤ s.entropy.length ∧ seed = s.entropy.take 32 ∧
        t = { s with entropy := s.entropy.drop 32 }.setBuf .seed seed) := by
  unfold State.oaepSeed State.rngDraw at h
  split at h
  · next h1 => cases h; exact .inl ⟨h1, rfl, rfl⟩
  · next h1 =>
    split at h
    · next h2 => cases h; exact .inr ⟨by simpa using h1, h2, rfl, rfl⟩
    · cases h

theorem oaepSeed_length {s t : State} {seed : List Byte} (h : s.oaepSeed = some (seed, t)) : seed.length = 32 := by
  rcases oaepSeed_some h with ⟨-, rfl, -⟩ | ⟨-, hl, rfl, -⟩ <;> simp [*]

/-- The entropy port has not answered exactly when it is asked and has fewer than 32 bytes. -/
theorem oaepSeed_none {s : State} : s.oaepSeed = none ↔ s.seedSelL = false ∧ s.entropy.length < 32 := by
  unfold State.oaepSeed State.rngDraw
  split
  · next h1 => simp [h1]
  · next h1 => split <;> simp_all [Config.hLen]

theorem oaepLengthsBad_false {s : State} : s.oaepLengthsBad = false ↔
    s.k ≤ s.config.kmax ∧ s.llen.toNat ≤ s.config.lmax := by
  simp [State.oaepLengthsBad]

theorem messageTooLong_false {s : State} : s.messageTooLong = false ↔ s.mlen.toNat + 66 ≤ s.k := by
  simp [State.messageTooLong, Config.hLen, Nat.add_assoc]

theorem oaepenc_ok {s w : State} (h : oaepenc s = .ok w) :
    s.k ≤ s.config.kmax ∧ s.llen.toNat ≤ s.config.lmax ∧ s.mlen.toNat + 66 ≤ s.k ∧
      ∃ seed t, s.oaepSeed = some (seed, t) ∧ w = t.setBuf .abuf (oaepEncode s.message s.k s.label seed) := by
  unfold oaepenc at h
  split at h
  · cases h
  · next h1 =>
    split at h
    · cases h
    · next h2 =>
      split at h
      · cases h
      · next seed t hs =>
        cases h
        obtain ⟨ha, hb⟩ := oaepLengthsBad_false.1 (by simpa using h1)
        exact ⟨ha, hb, messageTooLong_false.1 (by simpa using h2), seed, t, hs, rfl⟩

theorem oaepdec_ok {b : Buf} {s w : State} (h : oaepdec b s = .ok w) :
    s.k ≤ s.config.kmax ∧ s.llen.toNat ≤ s.config.lmax ∧
      ∃ m, oaepDecode (s.buf b s.k) s.k s.label = .msg m ∧
        w = { s.setBuf .mbuf m with mlen := BitVec.ofNat 16 m.length } := by
  unfold oaepdec at h
  split at h
  · cases h
  · next h1 =>
    obtain ⟨ha, hb⟩ := oaepLengthsBad_false.1 (by simpa using h1)
    split at h
    · cases h
    · next m hm => cases h; exact ⟨ha, hb, m, hm, rfl⟩

/-- A slice write changes memory and nothing else. -/
theorem State.setBuf_shape (s : State) (b : Buf) (bytes : List Byte) :
    s.setBuf b bytes = { s with mem := (s.setBuf b bytes).mem } := rfl

/-- The fields of a state a successful command can write. -/
def State.sameOutside (s w : State) : Prop :=
  w = { s with
    mem := w.mem, mlen := w.mlen, n0inv := w.n0inv, rr := w.rr, keyok := w.keyok, entropy := w.entropy }

theorem State.sameOutside_setBuf {s w : State} (h : s.sameOutside w) (b : Buf) (bytes : List Byte) :
    s.sameOutside (w.setBuf b bytes) := by
  unfold State.sameOutside at h ⊢
  rw [State.setBuf_shape]
  generalize (w.setBuf b bytes).mem = m
  rw [h]

theorem State.sameOutside_inputs {s w : State} (h : s.sameOutside w) : w.inputs = s.inputs := by
  unfold State.sameOutside at h
  rw [h]

theorem State.sameOutside_refl (s : State) : s.sameOutside s := rfl

/-- What a successful command can write, whichever it is: memory, MLEN, N0INV, RR, KEYOK, and bytes off the entropy port
(40_command_execution.md R112). -/
theorem commandResult_ok {i : Instr} {s w : State} (h : commandResult i s = .ok w) :
    s.sameOutside w := by
  have hself := s.sameOutside_refl
  cases i with
  | nop => cases h; rfl
  | minit => obtain ⟨-, -, -, -, -, rfl⟩ := minit_ok h; rfl
  | montmul sa sb =>
    simp only [commandResult] at h
    split at h
    · obtain ⟨-, -, -, rfl⟩ := montmul_ok h; exact State.sameOutside_setBuf hself ..
    · cases h
  | modmul sa sb =>
    simp only [commandResult] at h
    split at h
    · obtain ⟨-, rfl⟩ := modmul_ok h; exact State.sameOutside_setBuf hself ..
    · cases h
  | modexp sa =>
    simp only [commandResult] at h
    split at h
    · obtain ⟨-, rfl⟩ := modexp_ok h; exact State.sameOutside_setBuf hself ..
    · cases h
  | hash sa =>
    simp only [commandResult] at h
    split at h
    · obtain ⟨-, rfl⟩ := hash_ok h; exact State.sameOutside_setBuf hself ..
    · cases h
  | mgf1 len => obtain ⟨-, -, rfl⟩ := mgf1_ok h; exact State.sameOutside_setBuf hself ..
  | oaepenc =>
    obtain ⟨-, -, -, seed, t, hs, rfl⟩ := oaepenc_ok h
    rcases oaepSeed_some hs with ⟨-, -, rfl⟩ | ⟨-, -, -, rfl⟩
    · exact State.sameOutside_setBuf hself ..
    · refine State.sameOutside_setBuf (State.sameOutside_setBuf ?_ ..) ..
      rfl
  | oaepdec sa =>
    simp only [commandResult] at h
    split at h
    · obtain ⟨-, -, m, -, rfl⟩ := oaepdec_ok h
      have := State.sameOutside_setBuf hself .mbuf m
      unfold State.sameOutside at this ⊢
      generalize s.setBuf .mbuf m = u at this ⊢
      rw [this]
    · cases h

/-! ### Errors -/

/-- The codes and sub-codes a command can end with (60_exceptions.md R221, R222). -/
theorem commandResult_err {i : Instr} {s : State} {c : ErrCode} {sub : BitVec 8} (h : commandResult i s = .err c sub) :
    (c ≠ .decode ∧ sub = 0#8) ∨
      (c = .decode ∧ (sub = 1#8 ∨ sub = 2#8 ∨ sub = 3#8 ∨ sub = 4#8 ∨ sub = 5#8)) := by
  cases i with
  | nop => cases h
  | minit => simp only [commandResult, minit] at h; split_ifs at h <;> cases h <;> simp
  | montmul sa sb =>
    simp only [commandResult, montmul] at h
    split at h <;> [split_ifs at h; skip] <;> cases h <;> simp
  | modmul sa sb =>
    simp only [commandResult, modmul] at h
    split at h <;> [split_ifs at h; skip] <;> cases h <;> simp
  | modexp sa =>
    simp only [commandResult, modexp] at h
    split at h <;> [split_ifs at h; skip] <;> cases h <;> simp
  | hash sa =>
    simp only [commandResult, hash] at h
    split at h <;> [split_ifs at h; skip] <;> cases h <;> simp
  | mgf1 len => simp only [commandResult, mgf1] at h; split_ifs at h; cases h; simp
  | oaepenc =>
    simp only [commandResult, oaepenc] at h
    split_ifs at h
    · cases h; simp
    · cases h; simp
    · split at h <;> cases h
  | oaepdec sa =>
    simp only [commandResult, oaepdec] at h
    split at h
    · split_ifs at h
      · cases h; simp
      · split at h
        · next hf => cases h; exact .inr ⟨rfl, oaepDecode_fail hf⟩
        · cases h
    · cases h; simp

/-- Only OAEPENC waits, and only for the entropy port (10_state.md R45). -/
theorem commandResult_pending {i : Instr} {s : State} (h : commandResult i s = .pending) :
    i = .oaepenc ∧ s.seedSelL = false ∧ s.entropy.length < 32 := by
  cases i with
  | nop => cases h
  | minit => simp only [commandResult, minit] at h; split_ifs at h
  | montmul sa sb =>
    simp only [commandResult, montmul] at h
    split at h
    · split_ifs at h
    · cases h
  | modmul sa sb =>
    simp only [commandResult, modmul] at h
    split at h
    · split_ifs at h
    · cases h
  | modexp sa =>
    simp only [commandResult, modexp] at h
    split at h
    · split_ifs at h
    · cases h
  | hash sa =>
    simp only [commandResult, hash] at h
    split at h
    · split_ifs at h
    · cases h
  | mgf1 len => simp only [commandResult, mgf1] at h; split_ifs at h
  | oaepenc =>
    simp only [commandResult, oaepenc] at h
    split_ifs at h
    split at h
    · next hs => exact ⟨rfl, oaepSeed_none.1 hs⟩
    · cases h
  | oaepdec sa =>
    simp only [commandResult, oaepdec] at h
    split at h
    · split_ifs at h
      split at h <;> cases h
    · cases h

/-! ### Drawing -/

/-- Entropy is drawn by a successful OAEPENC with SEEDSEL_L = 0 only, exactly 32 bytes of it (10_state.md R45). -/
theorem exec_entropy {i : Instr} {s t : State} (h : exec i s = .next t) :
    t.entropy = s.entropy ∨
      (i = .oaepenc ∧ s.seedSelL = false ∧ 32 ≤ s.entropy.length ∧ t.done = true ∧ t.entropy = s.entropy.drop 32) := by
  have keep : ∀ (b : Buf) (bytes : List Byte), (s.setBuf b bytes).commit.entropy = s.entropy := fun _ _ => rfl
  rw [exec_eq_complete] at h
  obtain ⟨w, hr, rfl⟩ | ⟨c, sub, -, rfl⟩ | ⟨-, rfl⟩ := complete_next h
  · cases i with
    | nop => cases hr; exact .inl rfl
    | minit => obtain ⟨-, -, -, -, -, rfl⟩ := minit_ok hr; exact .inl rfl
    | montmul sa sb =>
      simp only [commandResult] at hr
      split at hr
      · obtain ⟨-, -, -, rfl⟩ := montmul_ok hr; exact .inl (keep ..)
      · cases hr
    | modmul sa sb =>
      simp only [commandResult] at hr
      split at hr
      · obtain ⟨-, rfl⟩ := modmul_ok hr; exact .inl (keep ..)
      · cases hr
    | modexp sa =>
      simp only [commandResult] at hr
      split at hr
      · obtain ⟨-, rfl⟩ := modexp_ok hr; exact .inl (keep ..)
      · cases hr
    | hash sa =>
      simp only [commandResult] at hr
      split at hr
      · obtain ⟨-, rfl⟩ := hash_ok hr; exact .inl (keep ..)
      · cases hr
    | mgf1 len => obtain ⟨-, -, rfl⟩ := mgf1_ok hr; exact .inl (keep ..)
    | oaepenc =>
      obtain ⟨-, -, -, seed, u, hs, rfl⟩ := oaepenc_ok hr
      rw [State.commit_entropy, State.setBuf_entropy]
      rcases oaepSeed_some hs with ⟨-, -, rfl⟩ | ⟨h1, h2, -, rfl⟩
      · exact .inl rfl
      · exact .inr ⟨rfl, h1, h2, rfl, rfl⟩
    | oaepdec sa =>
      simp only [commandResult] at hr
      split at hr
      · obtain ⟨-, -, m, -, rfl⟩ := oaepdec_ok hr; exact .inl (keep .mbuf m)
      · cases hr
  · exact .inl rfl
  · exact .inl rfl

/-! ### Waiting -/

/-- When OAEPENC waits: its checks pass and the entropy port is short of bytes (43_oaep.md R182). -/
theorem oaepenc_pending_iff {s : State} : oaepenc s = .pending ↔
    s.oaepLengthsBad = false ∧ s.messageTooLong = false ∧ s.seedSelL = false ∧ s.entropy.length < 32 := by
  rw [← oaepSeed_none]
  unfold oaepenc
  cases s.oaepLengthsBad <;> cases s.messageTooLong <;> cases s.oaepSeed <;> simp

/-- A command does not touch the list of inputs. -/
theorem exec_inputs {i : Instr} {s t : State} (h : exec i s = .next t) : t.inputs = s.inputs := by
  rw [exec_eq_complete] at h
  obtain ⟨w, hr, rfl⟩ | ⟨c, sub, -, rfl⟩ | ⟨-, rfl⟩ := complete_next h
  · rw [State.commit_inputs]
    exact State.sameOutside_inputs (commandResult_ok hr)
  · rfl
  · rfl

end Sys2Proof.Machine
end

