-- ==== Sys2Proof/Laws/Port.lean ====
section
/-! SUPPORT. What a host transaction can do, said once, and the address map's arithmetic (20_memory.md R61-R67). -/

namespace Sys2Proof.Machine

/-! ### The address map -/

theorem byteAddr_lt (a : WordAddr) : byteAddr a < 0x2000 := by
  have := a.isLt
  unfold byteAddr; omega

theorem byteAddr_mod (a : WordAddr) : byteAddr a % 4 = 0 := by unfold byteAddr; omega

theorem placeBuffer_buffer {c : Config} {b b' : Buf} {a off : Nat} (h : placeBuffer c b a = .buffer b' off) :
    b' = b ∧ off = a - b.base ∧ off < b.size c := by
  unfold placeBuffer at h
  split at h
  · next h1 => cases h; exact ⟨rfl, rfl, h1⟩
  · cases h

theorem placeControl_ne_buffer (a : Nat) (b : Buf) (off : Nat) : placeControl a ≠ .buffer b off := by
  unfold placeControl
  split_ifs <;> simp

theorem placeControl_ne_unmappedData (a : Nat) : placeControl a ≠ .unmappedData := by
  unfold placeControl
  split_ifs <;> simp

theorem placeData_buffer {c : Config} {a : Nat} {b : Buf} {off : Nat} (hlow : 0x40 ≤ a)
    (h : placeData c a = .buffer b off) : b.base + off = a ∧ off < b.size c := by
  unfold placeData at h
  have key : ∀ {b' : Buf}, b'.base ≤ a → placeBuffer c b' a = .buffer b off → b.base + off = a ∧ off < b.size c := by
    intro b' hb hp
    obtain ⟨rfl, rfl, hsz⟩ := placeBuffer_buffer hp
    exact ⟨by omega, hsz⟩
  repeat' split at h
  all_goals first
    | (refine key ?_ h; simp only [Buf.base]; omega)
    | cases h

/-- A mapped data word lies in its buffer's window, at its own offset (20_memory.md R61). -/
theorem place_buffer {c : Config} {a : WordAddr} {b : Buf} {off : Nat} (h : place c a = .buffer b off) :
    b.base + off = byteAddr a ∧ off < b.size c := by
  unfold place at h
  split at h
  · exact absurd h (placeControl_ne_buffer _ _ _)
  · next hge => exact placeData_buffer (by omega) h

/-- With legal parameters all four bytes of a mapped word are mapped (20_memory.md R65). -/
theorem place_buffer_word {c : Config} {a : WordAddr} {b : Buf} {off : Nat} (hc : c.wf = true)
    (h : place c a = .buffer b off) : off + 4 ≤ b.size c := by
  obtain ⟨haddr, hlt⟩ := place_buffer h
  have hmod := byteAddr_mod a
  simp only [Config.wf, Bool.and_eq_true, beq_iff_eq, decide_eq_true_eq] at hc
  obtain ⟨⟨⟨hk, -⟩, -⟩, ⟨hl, -⟩, -⟩ := hc
  cases b <;> simp only [Buf.base, Buf.size] at haddr hlt ⊢ <;> omega

/-- Every buffer fits its window (00_scope.md R6, 20_memory.md R61). -/
theorem Buf.size_le {c : Config} (hc : c.wf = true) (b : Buf) : b.size c ≤ 1024 := by
  simp only [Config.wf, Bool.and_eq_true, beq_iff_eq, decide_eq_true_eq] at hc
  cases b <;> simp only [Buf.size] <;> omega

theorem Buf.mem_all (b : Buf) : b ∈ Buf.all := by cases b <;> decide

/-- A byte within a buffer's size is mapped. -/
theorem mappedByte_of_lt {c : Config} (b : Buf) {a : Nat} (h1 : b.base ≤ a) (h2 : a < b.base + b.size c) :
    mappedByte c a = true := by
  unfold mappedByte
  rw [List.any_eq_true]
  exact ⟨b, Buf.mem_all b, by simp [Buf.holds, h1, h2]⟩

theorem mappedByte_of_large {c : Config} {a : Nat} (h : largeByte c a = true) : mappedByte c a = true := by
  unfold largeByte at h
  unfold mappedByte
  rw [List.any_eq_true] at h ⊢
  obtain ⟨b, hb, hh⟩ := h
  exact ⟨b, hb, (Bool.and_eq_true_iff.1 hh).2⟩

/-- Two different buffers' bytes are at different addresses. -/
theorem Buf.disjoint {c : Config} (hc : c.wf = true) {b b' : Buf} (hne : b ≠ b') {i j : Nat} (hi : i < b.size c)
    (hj : j < b'.size c) : b.base + i ≠ b'.base + j := by
  have h1 := Buf.size_le hc b
  have h2 := Buf.size_le hc b'
  cases b <;> cases b' <;> first
    | exact absurd rfl hne
    | (simp only [Buf.base, Buf.size] at *; omega)

/-- Every word of a buffer is a place of that buffer (20_memory.md R61). -/
theorem place_eq_buffer {c : Config} (hc : c.wf = true) {a : WordAddr} {b : Buf} (h1 : b.base ≤ byteAddr a)
    (h2 : byteAddr a < b.base + b.size c) : place c a = .buffer b (byteAddr a - b.base) := by
  have hsz := Buf.size_le hc b
  have hplace : place c a = placeBuffer c b (byteAddr a) := by
    unfold place
    cases b <;> simp only [Buf.base, Buf.size] at h1 h2 hsz <;> rw [if_neg (by omega)] <;> unfold placeData <;>
      repeat' first
        | rw [if_pos (by omega)]
        | rw [if_neg (by omega)]
  rw [hplace, placeBuffer, if_pos (by omega)]

/-! ### Transactions -/

/-- A read changes the last read word and LOCKV at most, and LOCKV only of a busy block (20_memory.md R62). -/
theorem hostRead_cases (a : WordAddr) (s : State) :
    (∃ v, hostRead a s = { s with rdata := v }) ∨
      (s.busy = true ∧ hostRead a s = { s with rdata := 0#32, lockv := true }) := by
  have hdata : ∀ v, (∃ v', s.dataRead v = { s with rdata := v' }) ∨
      (s.busy = true ∧ s.dataRead v = { s with rdata := 0#32, lockv := true }) := by
    intro v
    unfold State.dataRead
    split
    · next h => exact .inr ⟨h, rfl⟩
    · exact .inl ⟨v, rfl⟩
  unfold hostRead
  split
  · exact .inl ⟨_, rfl⟩
  · exact .inl ⟨_, rfl⟩
  · exact hdata _
  · exact hdata _

/-- Everything a write can do (20_memory.md R63). -/
theorem hostWrite_cases (a : WordAddr) (v : Word) (s : State) :
    hostWrite a v s = s ∨
    hostWrite a v s = s.writeCtrl v ∨
    hostWrite a v s = s.clearStatus v ∨
    (s.busy = true ∧ hostWrite a v s = s.lockViolation) ∨
    (s.busy = false ∧ place s.config a = .reg .cmd ∧ hostWrite a v s = s.accept v) ∨
    (s.busy = false ∧ place s.config a = .reg .klen ∧
      hostWrite a v s = { s with klen := v.extractLsb' 0 16, keyok := false }) ∨
    (s.busy = false ∧ place s.config a = .reg .mlen ∧ hostWrite a v s = { s with mlen := v.extractLsb' 0 16 }) ∨
    (s.busy = false ∧ place s.config a = .reg .llen ∧ hostWrite a v s = { s with llen := v.extractLsb' 0 16 }) ∨
    (∃ b off, s.busy = false ∧ place s.config a = .buffer b off ∧ b ≠ .digest ∧
      hostWrite a v s = { s.writeWord (b.base + off) v with keyok := if b = .nbuf then false else s.keyok }) := by
  cases hb : s.busy <;> cases hp : place s.config a with
  | reg r => cases r <;> simp [hostWrite, hp, State.regWrite, State.lockedWrite, hb]
  | unmappedControl => simp [hostWrite, hp]
  | unmappedData => simp [hostWrite, hp, State.lockedWrite, hb]
  | buffer b off =>
    cases b <;> simp [hostWrite, hp, State.lockedWrite, State.bufWrite, hb, State.writeWord, State.clearKeyok]

/-- A step answers a next state, whatever the state. -/
theorem applyInput_total (i : Input) (s : State) : ∃ t, applyInput i s = .next t := by
  cases i with
  | read a => exact ⟨_, rfl⟩
  | write a v => exact ⟨_, rfl⟩
  | reset contents => exact ⟨_, rfl⟩
  | engine =>
    simp only [applyInput, engineTurn, completionStep]
    split
    · split
      · exact exec_eq_complete _ s ▸ complete_total s _
      · exact complete_total s _
    · exact ⟨_, rfl⟩

/-- What the engine's turn leaves is not busy, unless it waits and has changed nothing. -/
theorem engineTurn_busy {s t : State} (h : engineTurn s = .next t) (hb : t.busy = true) :
    t = s ∧ decode s.cmdreg = .instr .oaepenc ∧ oaepenc s = .pending := by
  unfold engineTurn completionStep at h
  split at h
  · split at h
    · next i hi =>
      rw [exec_eq_complete] at h
      obtain ⟨w, -, rfl⟩ | ⟨c, sub, -, rfl⟩ | ⟨hr, rfl⟩ := complete_next h
      · cases hb
      · cases hb
      · obtain ⟨rfl, -, -⟩ := commandResult_pending hr
        exact ⟨rfl, hi, hr⟩
    · cases h; cases hb
  · next hn => cases h; exact absurd hb hn

/-- No turn touches the list of inputs. -/
theorem applyInput_inputs {i : Input} {s t : State} (h : applyInput i s = .next t) : t.inputs = s.inputs := by
  cases i with
  | read a =>
    cases h
    rcases hostRead_cases a s with ⟨v, e⟩ | ⟨-, e⟩ <;> rw [e]
  | write a v =>
    cases h
    rcases hostWrite_cases a v s with e | e | e | ⟨-, e⟩ | ⟨-, -, e⟩ | ⟨-, -, e⟩ | ⟨-, -, e⟩ | ⟨-, -, e⟩ |
      ⟨b, off, -, -, -, e⟩ <;> rw [e] <;> rfl
  | engine =>
    simp only [applyInput, engineTurn, completionStep] at h
    split at h
    · split at h
      · exact exec_inputs h
      · cases h; rfl
    · cases h; rfl
  | reset contents => cases h; rfl

end Sys2Proof.Machine
end

