-- ==== Sys2Proof/Machine/HostProcedures.lean ====
section
/-! DEFINITION. Host software, not hardware (45_host_procedures.md R200): the transaction notation (30_encoding.md
R100), the Miller-Rabin harness (R201-R203), the RSA block sequences (R204, R205) and the block cipher driver with its
wire format (R206-R209), each as a function that drives the machine transaction by transaction. -/

namespace Sys2Proof.Machine

/-! ### Transactions -/

/-- Word address of a byte address of the map. -/
def wordAddr (byteAddress : Nat) : WordAddr := BitVec.ofNat 11 (byteAddress / 4)

/-- Word addresses of the registers a procedure touches (20_memory.md R61). -/
def Reg.addr : Reg → WordAddr
  | .id => wordAddr 0x00
  | .cap => wordAddr 0x04
  | .ctrl => wordAddr 0x08
  | .status => wordAddr 0x0C
  | .errinfo => wordAddr 0x10
  | .cmd => wordAddr 0x14
  | .klen => wordAddr 0x18
  | .mlen => wordAddr 0x1C
  | .llen => wordAddr 0x20
  | .n0inv => wordAddr 0x24

/-- `wr REG, V` (30_encoding.md R100). -/
def wr (r : Reg) (v : Nat) : Input := .write r.addr (BitVec.ofNat 32 v)

/-- Word `j` of a byte string, missing trailing bytes as 0x00 (30_encoding.md R100). -/
def packWord (bytes : List Byte) (j : Nat) : Word :=
  wordOfBytes (bytes.getD (4 * j) 0#8) (bytes.getD (4 * j + 1) 0#8) (bytes.getD (4 * j + 2) 0#8) (bytes.getD (4 * j + 3) 0#8)

/-- `wrbuf BUF, bytes` (30_encoding.md R100). -/
def wrbuf (b : Buf) (bytes : List Byte) : List Input :=
  (List.range (wordCount bytes.length)).map fun j => .write (wordAddr (b.base + 4 * j)) (packWord bytes j)

/-- `cmd <command>` (30_encoding.md R100). -/
def cmd (i : Instr) : Input := .write Reg.cmd.addr (encode i)

/-- Why a procedure ends without its result. -/
inductive HostError where
  /-- "encrypting a zero-length message is rejected" (45_host_procedures.md R208). -/
  | emptyMessage
  /-- A modulus of at most 2h + 2 = 66 bytes leaves no room for a message byte. The spec's block count has no value
  there (R206); that the host refuses is a DESIGN CHOICE (notes/assumptions/21.md). -/
  | modulusTooShort
  /-- A modulus of more than KMAX bytes. The spec is silent (R202, R204, R205); that the host refuses before it touches
  the block is a DESIGN CHOICE (notes/assumptions/21.md). -/
  | modulusTooLong
  /-- An exponent of 256^k or more, which `be_bytes(e, k)` does not write (00_scope.md R10). The spec is silent (R204,
  R205); that the host refuses before it touches the block is a DESIGN CHOICE (notes/assumptions/21.md). -/
  | exponentTooLong
  /-- A message of 2^32 blocks or more, whose count `be_bytes(B, 4)` does not exist (00_scope.md R10). That the host
  refuses is a DESIGN CHOICE (notes/assumptions/21.md). -/
  | tooManyBlocks
  /-- Too short for the header, or a length that does not fit it (R207). -/
  | malformedCiphertext
  /-- "when `oaepdec` ends with `ERR`, the host reports a decoding error and returns no plaintext" (R205). -/
  | decodingError
  /-- Any other command's end without DONE: the STATUS word and the ERRINFO word the host read. The spec is silent (R204,
  R205); that the host ends there is a DESIGN CHOICE (notes/assumptions/22.md). -/
  | commandError (status errinfo : Word)
  /-- BUSY stays 1 for ever: the entropy source never delivers (70_reset_and_hazards.md R261). -/
  | neverCompletes
  /-- The machine stopped. It never does. -/
  | machineStopped
  deriving DecidableEq, Repr

/-- Host software: it drives the machine and ends with a result or an error, and the machine's state is as it left it
either way. The turns that fall into its waits are the list of inputs of the state. -/
abbrev Procedure := ExceptT HostError (StateM State)

/-- Take one step of the machine, or one transaction. -/
def drive (f : State → Host.Outcome State Fault Refusal) : Procedure Unit := fun s =>
  match f s with
  | .next t => (.ok (), t)
  | .fault _ => (.error .machineStopped, s)
  | .refused _ => (.error .machineStopped, s)

/-- One host transaction. -/
def perform (i : Input) : Procedure Unit := drive (applyInput i)

/-- Host transactions, one after another. -/
def performAll : List Input → Procedure Unit
  | [] => pure ()
  | i :: rest => do perform i; performAll rest

/-- `rd ADDR -> x` (30_encoding.md R100). -/
def rd (a : WordAddr) : Procedure Word := do
  perform (.read a)
  return (← get).rdata

/-- The polls of `wait`, at most `fuel` of them: the next turn, then `rd STATUS -> s` until `s[0] = 0`. -/
def poll : Nat → Procedure Word
  | 0 => throw .neverCompletes
  | fuel + 1 => do
    drive step
    let status ← rd Reg.status.addr
    if status.getLsbD 0 then poll fuel else return status

/-- `wait` (30_encoding.md R100); its result is the final STATUS word. The turns between polls are the machine's next
steps: those that `inputs` lists and, after them, one of the engine, beyond which BUSY no longer falls
(`wait_neverCompletes` in Laws). A read of STATUS in the list is a poll before the engine's turn, so that every
interleaving of 70_reset_and_hazards.md R260 is some list (notes/assumptions/12.md). -/
def wait : Procedure Word := do poll ((← get).inputs.length + 1)

/-- `cmd <command> ; wait` (30_encoding.md R100, 45_host_procedures.md R200); its result is the final STATUS word. -/
def issue (i : Instr) : Procedure Word := do
  perform (cmd i)
  wait

/-- Go on only after DONE. The listings of 45_host_procedures.md R203-R205 look at no STATUS after a command, and R202
says of MINIT that it "must end DONE" but not what the host does otherwise: that it reads ERRINFO and ends with an error
is a DESIGN CHOICE (notes/assumptions/22.md). -/
def requireDone (status : Word) : Procedure Unit := do
  unless status.getLsbD 1 do
    throw (.commandError status (← rd Reg.errinfo.addr))

/-- A command and its `wait`, with an error where it ends without DONE (DESIGN CHOICE, notes/assumptions/22.md). -/
def command (i : Instr) : Procedure Unit := do
  requireDone (← issue i)

/-- The words at a list of addresses. -/
def readWords : List WordAddr → Procedure (List Word)
  | [] => return []
  | a :: rest => do
    let w ← rd a
    return w :: (← readWords rest)

/-- `rdbuf BUF, c -> x` (30_encoding.md R100): the first `c` bytes of the words read. -/
def rdbuf (b : Buf) (c : Nat) : Procedure (List Byte) := do
  let words ← readWords ((List.range (wordCount c)).map fun j => wordAddr (b.base + 4 * j))
  return (words.flatMap bytesOfWord).take c

/-! ### Keys -/

/-- `ceil(bit_length(n)/8)` (45_host_procedures.md R202). -/
def byteLength (n : Nat) : Nat := if n = 0 then 0 else (n.log2 + 8) / 8

/-- The key load of 45_host_procedures.md R202, R204, R205: modulus, exponent, MINIT, which must end with DONE (R202). A
modulus longer than KMAX and an exponent of 256^k or more are refused first (DESIGN CHOICE, notes/assumptions/21.md), and
where MINIT ends without DONE the host ends with an error (DESIGN CHOICE, notes/assumptions/22.md). -/
def loadKey (n e : Nat) : Procedure Unit := do
  let k := byteLength n
  if (← get).config.kmax < k then throw .modulusTooLong
  if 256 ^ k ≤ e then throw .exponentTooLong
  performAll ([wr .klen k] ++ wrbuf .nbuf (beBytes n k) ++ wrbuf .ebuf (beBytes e k))
  command .minit

/-! ### Miller-Rabin witness rounds -/

/-- `(r, d)` with `m = 2^r · d`, dividing by 2 at most `fuel` times (45_host_procedures.md R202). -/
def twoAdic : Nat → Nat → Nat × Nat
  | 0, m => (0, m)
  | fuel + 1, m => if m % 2 = 0 then ((twoAdic fuel (m / 2)).1 + 1, (twoAdic fuel (m / 2)).2) else (0, m)

/-- The squarings of one round, at most `squarings` of them (45_host_procedures.md R203). -/
def witnessSquarings (n k : Nat) : Nat → Procedure Bool
  | 0 => return false
  | squarings + 1 => do
    command (.modmul 2#4 2#4)
    let x ← rdbuf .rbuf k
    if beInt x = n - 1 then return true else witnessSquarings n k squarings

/-- One round with base `a` (45_host_procedures.md R203). -/
def witnessRound (n r k a : Nat) : Procedure Bool := do
  performAll (wrbuf .abuf (beBytes a k))
  command (.modexp 0#4)
  let x ← rdbuf .rbuf k
  if beInt x = 1 ∨ beInt x = n - 1 then return true else witnessSquarings n k (r - 1)

/-- The rounds, one per base, until one fails (45_host_procedures.md R201). -/
def witnessRounds (n r k : Nat) : List Nat → Procedure Bool
  | [] => return true
  | a :: bases => do
    if ← witnessRound n r k a then witnessRounds n r k bases else return false

/-- The bases of `t` rounds for `n ≥ 5`, each in `[2, n-2]` (45_host_procedures.md R203). The numbers `draw 0`, `draw 1`,
… are the host's random source; reducing them into the range is the model's way to write it (notes/assumptions/12.md). -/
def drawBases (n : Nat) (draw : Nat → Nat) (t : Nat) : List Nat :=
  (List.range t).map fun i => 2 + draw i % (n - 3)

/-- The key load and `t` rounds for odd `n ≥ 5`, with `n - 1 = 2^r · d` (45_host_procedures.md R202, R203). -/
def evaluateWitnesses (n : Nat) (draw : Nat → Nat) (t : Nat) : Procedure Bool := do
  let rd := twoAdic (n - 1).log2 (n - 1)
  loadKey n rd.2
  witnessRounds n rd.1 (byteLength n) (drawBases n draw t)

/-- The default round count (45_host_procedures.md R201). -/
def defaultRounds : Nat := 5

/-- `IsProbablePrime(n, t)` for `n ≥ 2`, a boolean only: probably prime or composite (45_host_procedures.md R201, R202).
Where the run on the block gives no verdict (`n` is longer than KMAX bytes, a reset falls into it) the spec states none:
it is a free value there (notes/assumptions/20.md). -/
def isProbablePrime (n : Nat) (draw : Nat → Nat) (t : Nat := defaultRounds) : StateM State Bool := fun s =>
  if n = 2 ∨ n = 3 then (true, s)
  else if n % 2 = 0 then (false, s)
  else
    match (evaluateWitnesses n draw t).run s with
    | (.ok verdict, u) => (verdict, u)
    | (.error _, u) => (Config.unstatedVerdict n, u)

/-! ### RSA blocks and the block cipher driver -/

/-- What comes once per key before the chunks: the key load and the empty label (45_host_procedures.md R204). -/
def beginEncrypt (e n : Nat) : Procedure Unit := do
  loadKey n e
  perform (wr .llen 0)

/-- The part of 45_host_procedures.md R204 that repeats for every chunk. A command that ends without DONE ends the
procedure (DESIGN CHOICE, notes/assumptions/22.md). -/
def encryptChunk (k : Nat) (chunk : List Byte) : Procedure (List Byte) := do
  performAll (wrbuf .mbuf chunk ++ [wr .mlen chunk.length])
  command .oaepenc
  command (.modexp 0#4)
  rdbuf .rbuf k

/-- Decrypt one block with the key already loaded; LLEN is written for each block, as the listing of
45_host_procedures.md R205 has it after the line "once per key". OAEPDEC's ERR is a decoding error (R205); MODEXP's end
without DONE, and OAEPDEC's with neither DONE nor ERR, are the model's error (DESIGN CHOICE, notes/assumptions/22.md). -/
def decryptBlock (block : List Byte) : Procedure (List Byte) := do
  performAll ([wr .llen 0] ++ wrbuf .abuf block)
  command (.modexp 0#4)
  let status ← issue (.oaepdec 2#4)
  if status.getLsbD 2 then throw .decodingError
  requireDone status
  let len ← rd Reg.mlen.addr
  rdbuf .mbuf len.toNat

/-- Run `f` on each part in order and put the results together. -/
def eachPart (f : List Byte → Procedure (List Byte)) : List (List Byte) → Procedure (List Byte)
  | [] => return []
  | p :: ps => do
    let out ← f p
    return out ++ (← eachPart f ps)

/-- Consecutive parts of `size` bytes, the last may be shorter, for `size > 0` (45_host_procedures.md R206). -/
def parts (size : Nat) (bytes : List Byte) : List (List Byte) :=
  (List.range ((bytes.length + size - 1) / size)).map fun i => slice bytes (size * i) (size * i + size)

/-- Encrypt a message under `(e, n)` (45_host_procedures.md R206, R208, R209): a 4-byte block count, then the blocks. The
spec states no result for a non-empty message when `k ≤ 66` or when there are 2^32 blocks or more; each is an error
before the block is touched (DESIGN CHOICE, notes/assumptions/21.md). -/
def encryptMessage (e n : Nat) (msg : List Byte) : Procedure (List Byte) := do
  let k := byteLength n
  if msg = [] then throw .emptyMessage
  if k ≤ 2 * Config.hLen + 2 then throw .modulusTooShort
  let chunks := parts (k - 2 * Config.hLen - 2) msg
  if 2 ^ 32 ≤ chunks.length then throw .tooManyBlocks
  beginEncrypt e n
  return beBytes chunks.length 4 ++ (← eachPart (encryptChunk k) chunks)

/-- Decrypt a ciphertext under `(d, n)` (45_host_procedures.md R207, R209). The two length tests come before the block is
touched. -/
def decryptMessage (d n : Nat) (ciphertext : List Byte) : Procedure (List Byte) := do
  let k := byteLength n
  if ciphertext.length < 4 ∨ ciphertext.length - 4 ≠ beInt (ciphertext.take 4) * k then throw .malformedCiphertext
  loadKey n d
  eachPart decryptBlock (parts k (ciphertext.drop 4))

end Sys2Proof.Machine
end

