-- ==== Sys2Proof/Laws/HostProcedures.lean ====
section
/-! SUPPORT. What the host procedures can do (45_host_procedures.md): `wait` ends without a STATUS word only in a block
that stays busy for ever, and the bases of the Miller-Rabin rounds lie in the rule's range. -/

namespace Sys2Proof.Machine

/-! ### Waiting -/

/-- A step takes the first input off the list. -/
theorem step_inputs {s t : State} (h : step s = .next t) : t.inputs = s.inputs.tail := by
  rw [applyInput_inputs h]
  cases hi : s.inputs <;> simp [nextTurn, hi]

/-- An OAEPENC whose wait the list of inputs cannot end. -/
structure State.Hung (s : State) : Prop where
  noInputs : s.inputs = []
  busy : s.busy = true
  decoded : decode s.cmdreg = .instr .oaepenc
  pending : oaepenc s = .pending

/-- A hung block stays as it is (70_reset_and_hazards.md R261). -/
theorem State.Hung.step_eq {s : State} (h : s.Hung) : step s = .next s := by
  simp only [step, nextTurn, h.noInputs, applyInput, engineTurn, h.busy, if_true, completionStep, h.decoded]
  rw [exec_eq_complete]
  exact congrArg (complete s) h.pending

/-- Waiting does not look at the last read word. -/
theorem State.Hung.with_rdata {s : State} (h : s.Hung) (v : Word) : State.Hung { s with rdata := v } := by
  have hp := oaepenc_pending_iff.1 h.pending
  exact ⟨h.noInputs, h.busy, h.decoded, oaepenc_pending_iff.2 hp⟩

/-- A block that is busy after the engine's turn of an empty list is hung. -/
theorem hung_of_step_busy {s t : State} (hs : s.inputs = []) (h : step s = .next t) (hb : t.busy = true) : t.Hung := by
  have he : engineTurn s = .next t := by simpa only [step, nextTurn, hs, applyInput] using h
  obtain ⟨rfl, hd, hp⟩ := engineTurn_busy he hb
  exact ⟨hs, hb, hd, hp⟩

/-- A STATUS read of the port: the word is STATUS and nothing else changes (20_memory.md R62, R67). -/
theorem hostRead_status (s : State) : hostRead Reg.status.addr s = { s with rdata := s.statusWord } := rfl

theorem statusWord_busy (s : State) : s.statusWord.getLsbD 0 = s.busy := by
  unfold State.statusWord
  generalize s.busy = b0, s.done = b1, s.err = b2, s.keyok = b3, s.lockv = b4
  revert b0 b1 b2 b3 b4
  decide

/-- One poll in full. -/
theorem poll_succ {s t : State} (fuel : Nat) (h : step s = .next t) :
    (poll (fuel + 1)).run s =
      if t.busy then (poll fuel).run { t with rdata := t.statusWord }
      else (.ok t.statusWord, { t with rdata := t.statusWord }) := by
  have hrun : (poll (fuel + 1)).run s =
      (if t.statusWord.getLsbD 0 then poll fuel else (return t.statusWord : Procedure Word)).run
        { t with rdata := t.statusWord } := by
    show ((drive step >>= fun _ => rd Reg.status.addr >>= fun status =>
      if status.getLsbD 0 then poll fuel else return status : Procedure Word)).run s = _
    simp only [drive, h, rd, perform, applyInput, hostRead_status, bind, ExceptT.bind, ExceptT.bindCont, ExceptT.mk,
      ExceptT.run, StateT.bind, get, getThe, MonadStateOf.get, liftM, monadLift, MonadLift.monadLift, ExceptT.lift,
      StateT.get, Functor.map, StateT.map, pure, StateT.pure, ExceptT.pure]
  rw [hrun, statusWord_busy]
  cases t.busy <;> rfl

theorem poll_neverCompletes {fuel : Nat} {s u : State} (hf : s.inputs.length + 1 ≤ fuel)
    (h : (poll fuel).run s = (.error .neverCompletes, u)) : u.Hung := by
  induction fuel generalizing s with
  | zero => omega
  | succ fuel ih =>
    obtain ⟨t, ht⟩ := applyInput_total (nextTurn s).1 (nextTurn s).2
    have hs : step s = .next t := ht
    rw [poll_succ fuel hs] at h
    split at h
    · next hb =>
      cases hin : s.inputs with
      | nil =>
        have hh := (hung_of_step_busy hin hs hb).with_rdata t.statusWord
        cases fuel with
        | zero => cases h; exact hh
        | succ fuel => exact ih (by rw [hh.noInputs]; simp) h
      | cons i rest =>
        refine ih ?_ h
        have htail := step_inputs hs
        simp only [hin, List.tail_cons, List.length_cons] at htail hf ⊢
        rw [htail]
        omega
    · cases h

/-- `wait` gives up only on a block that every further step leaves as it is (30_encoding.md R100,
70_reset_and_hazards.md R261). -/
theorem wait_neverCompletes {s u : State} (h : wait.run s = (.error .neverCompletes, u)) : step u = .next u :=
  (poll_neverCompletes (Nat.le_refl _) h).step_eq

/-! ### The Miller-Rabin harness -/

/-- Every base lies in `[2, n-2]` (45_host_procedures.md R203). -/
theorem drawBases_range {n t a : Nat} {draw : Nat → Nat} (hn : 5 ≤ n) (h : a ∈ drawBases n draw t) :
    2 ≤ a ∧ a ≤ n - 2 := by
  simp only [drawBases, List.mem_map] at h
  obtain ⟨i, -, rfl⟩ := h
  have := Nat.mod_lt (draw i) (show 0 < n - 3 by omega)
  omega

/-- Every base of the range can be drawn. -/
theorem drawBases_const {n a : Nat} (h2 : 2 ≤ a) (hn : a ≤ n - 2) (i : Nat) :
    drawBases n (fun _ => a - 2) i = List.replicate i a := by
  simp only [drawBases, Nat.mod_eq_of_lt (show a - 2 < n - 3 by omega), show 2 + (a - 2) = a by omega]
  simp

end Sys2Proof.Machine
end

