-- ==== Sys2Proof/Laws/PerInstr.lean ====
section
/-! SUPPORT. Statements about every command as syntax, one lemma per constructor. -/

namespace Sys2Proof.Laws.EncodedInRow

/-- The word of a command is a candidate for its own row of the opcode map and carries its opcode (30_encoding.md R91,
R95). -/
def Statement (i : Instr) : Prop := i.row.candidate (encode i) = true ∧ opcodeField (encode i) = i.opcode

theorem nop : Statement .nop := by unfold Statement; decide

theorem minit : Statement .minit := by unfold Statement; decide

theorem montmul (sa sb : Selector) : Statement (.montmul sa sb) := by unfold Statement; revert sa sb; decide

theorem modmul (sa sb : Selector) : Statement (.modmul sa sb) := by unfold Statement; revert sa sb; decide

theorem modexp (sa : Selector) : Statement (.modexp sa) := by unfold Statement; revert sa; decide

theorem hash (sa : Selector) : Statement (.hash sa) := by unfold Statement; revert sa; decide

theorem mgf1 (len : Half) : Statement (.mgf1 len) := by
  refine ⟨?_, by simp [encode]⟩
  rw [OpcodeRow.candidate, beq_iff_eq]
  apply BitVec.eq_of_toNat_eq
  simp only [Instr.row, mask_low_half, encode, pack_toNat, Instr.opcode, BitVec.toNat_ofNat]
  omega

theorem oaepenc : Statement .oaepenc := by unfold Statement; decide

theorem oaepdec (sa : Selector) : Statement (.oaepdec sa) := by unfold Statement; revert sa; decide

end Sys2Proof.Laws.EncodedInRow
end

