-- ==== Sys2Proof/Machine/Assembler.lean ====
section
/-! DEFINITION. The assembler syntax of commands and pseudo-commands (30_encoding.md R98, R99). It has no hardware
meaning (92_eei_decisions.md D30): it says which word a line of text stands for. Lines are lists of characters. -/

namespace Sys2Proof.Machine

/-- Blank characters of a line. -/
def isBlank (c : Char) : Bool := c == ' ' || c == '\t'

/-- Without blanks at either end. -/
def trimBlanks (cs : List Char) : List Char := ((cs.dropWhile isBlank).reverse.dropWhile isBlank).reverse

/-- The parts between commas. -/
def splitCommas : List Char → List (List Char)
  | [] => [[]]
  | c :: cs =>
    if c == ',' then [] :: splitCommas cs
    else
      match splitCommas cs with
      | [] => [[c]]
      | p :: ps => (c :: p) :: ps

/-- A digit of base at most 16. -/
def digitValue (c : Char) : Option Nat :=
  if '0' ≤ c ∧ c ≤ '9' then some (c.toNat - '0'.toNat)
  else if 'a' ≤ c ∧ c ≤ 'f' then some (c.toNat - 'a'.toNat + 10)
  else none

/-- The value of digits in `base`, after `acc`. -/
def digitsFrom (base : Nat) : Nat → List Char → Option Nat
  | acc, [] => some acc
  | acc, c :: cs =>
    match digitValue c with
    | some d => if d < base then digitsFrom base (acc * base + d) cs else none
    | none => none

/-- A decimal or `0x` number in 0..65535 (30_encoding.md R98). -/
def parseNumber (cs : List Char) : Option Half :=
  let value :=
    match cs with
    | [] => none
    | ['0', 'x'] => none
    | '0' :: 'x' :: hex => digitsFrom 16 0 hex
    | _ => digitsFrom 10 0 cs
  match value with
  | some v => if v < 65536 then some (BitVec.ofNat 16 v) else none
  | none => none

/-- A selector letter (30_encoding.md R98). -/
def parseSelector (cs : List Char) : Option Selector :=
  match cs with
  | ['a'] => some 0#4
  | ['b'] => some 1#4
  | ['r'] => some 2#4
  | ['m'] => some 3#4
  | ['l'] => some 4#4
  | _ => none

/-- An immediate, `#` and a number (30_encoding.md R98). -/
def parseImmediate (cs : List Char) : Option Half :=
  match cs with
  | '#' :: number => parseNumber number
  | _ => none

/-- A mnemonic with its operands (30_encoding.md R98, R99). -/
def parseCommand (mnemonic : List Char) (operands : List (List Char)) : Option Instr :=
  match mnemonic, operands with
  | ['n', 'o', 'p'], [] => some .nop
  | ['m', 'i', 'n', 'i', 't'], [] => some .minit
  | ['m', 'o', 'n', 't', 'm', 'u', 'l'], [x, y] =>
    (parseSelector x).bind fun sa => (parseSelector y).map fun sb => .montmul sa sb
  | ['m', 'o', 'd', 'm', 'u', 'l'], [x, y] =>
    (parseSelector x).bind fun sa => (parseSelector y).map fun sb => .modmul sa sb
  | ['m', 'o', 'd', 'e', 'x', 'p'], [x] => (parseSelector x).map .modexp
  | ['h', 'a', 's', 'h'], [x] => (parseSelector x).map .hash
  | ['m', 'g', 'f', '1'], [x] => (parseImmediate x).map .mgf1
  | ['o', 'a', 'e', 'p', 'e', 'n', 'c'], [] => some .oaepenc
  | ['o', 'a', 'e', 'p', 'd', 'e', 'c'], [x] => (parseSelector x).map .oaepdec
  | ['m', 'o', 'd', 's', 'q', 'r'], [x] => (parseSelector x).map Instr.modsqr
  | ['m', 'o', 'n', 't', 's', 'q', 'r'], [x] => (parseSelector x).map Instr.montsqr
  | ['r', 's', 'a', 'e', 'p'], [] => some Instr.rsaep
  | ['m', 'g', 'f', '1', 'h'], [] => some Instr.mgf1h
  | _, _ => none

/-- The word of one line: a mnemonic in upper or lower case, operands separated by commas, `;` starts a comment
(30_encoding.md R98). The rule gives the two cases for the mnemonic only; that the whole line is read in either case, so
that selector letters, the prefix `0x` and hexadecimal digits may be upper-case too, is a DESIGN CHOICE
(notes/assumptions/17.md), as is that a line with a selector outside its command's subset has no word. -/
def assembleLine (line : List Char) : Option Word :=
  let text := trimBlanks ((line.takeWhile fun c => c != ';').map Char.toLower)
  let mnemonic := text.takeWhile fun c => !isBlank c
  let rest := trimBlanks (text.dropWhile fun c => !isBlank c)
  let operands := if rest = [] then [] else (splitCommas rest).map trimBlanks
  match parseCommand mnemonic operands with
  | some i => if i.wellFormed then some (encode i) else none
  | none => none

end Sys2Proof.Machine
end

