-- ==== Sys2Proof/Tests/Slice0.lean ====
section
/-! SUPPORT. Tests of the model. Expected values are the spec's own (95_test_vectors.md, the vector named at each test, and
the examples of 30_encoding.md R98); the last part shows that the hypotheses of the statements can be met. -/

namespace Sys2Proof.Tests

open Sys2Proof Sys2Proof.Machine

/-! ### Well-formedness: one ill-formed term per check -/

theorem test_ill_formed_montmul_sa : (Instr.montmul 3#4 0#4).wellFormed = false := by decide
theorem test_ill_formed_montmul_sb : (Instr.montmul 0#4 3#4).wellFormed = false := by decide
theorem test_ill_formed_modmul_sa : (Instr.modmul 15#4 2#4).wellFormed = false := by decide
theorem test_ill_formed_modmul_sb : (Instr.modmul 2#4 4#4).wellFormed = false := by decide
theorem test_ill_formed_modexp : (Instr.modexp 3#4).wellFormed = false := by decide
theorem test_ill_formed_hash_low : (Instr.hash 2#4).wellFormed = false := by decide
theorem test_ill_formed_hash_high : (Instr.hash 5#4).wellFormed = false := by decide
theorem test_ill_formed_oaepdec : (Instr.oaepdec 3#4).wellFormed = false := by decide

/-! ### Decoding: words written out from 30_encoding.md R91, R95 -/

theorem test_decode_nop : decode 0x00000000#32 = .instr .nop := by decide
theorem test_decode_minit : decode 0x00000001#32 = .instr .minit := by decide
/-- imm16 | sb = 0001 | sa = 0000 | opcode 0x02. -/
theorem test_decode_montmul :
    decode 0b00000000000000000001000000000010#32 = .instr (.montmul 0#4 1#4) := by decide
/-- imm16 | sb = 0000 | sa = 0010 | opcode 0x03. -/
theorem test_decode_modmul :
    decode 0b00000000000000000000001000000011#32 = .instr (.modmul 2#4 0#4) := by decide
theorem test_decode_modexp : decode 0x00000104#32 = .instr (.modexp 1#4) := by decide
theorem test_decode_hash : decode 0x00000410#32 = .instr (.hash 4#4) := by decide
/-- imm16 = 0x0021 | sb | sa | opcode 0x11. -/
theorem test_decode_mgf1 :
    decode 0b00000000001000010000000000010001#32 = .instr (.mgf1 33#16) := by decide
theorem test_decode_oaepenc : decode 0x00000020#32 = .instr .oaepenc := by decide
theorem test_decode_oaepdec : decode 0x00000221#32 = .instr (.oaepdec 2#4) := by decide
/-- V13b, V13c: NOP with a non-zero upper bit, and an unassigned opcode. -/
theorem test_decode_illegal_words :
    decode 0x80000000#32 = .illegal .nonzeroUnusedField ∧ decode 0x00000012#32 = .illegal .unassignedOpcode ∧
      decode 0x00003002#32 = .illegal .selectorOutsideSubset ∧ decode 0x00011002#32 = .illegal .nonzeroUnusedField := by
  decide
/-- 30_encoding.md R98, R99: two lines and their words. -/
theorem test_assemble :
    assembleLine "  MONTMUL a, b ; product".toList = some 0x00001002#32 ∧
      assembleLine "mgf1 #0x21".toList = some 0x00210011#32 ∧ assembleLine "modsqr r".toList = some 0x00002203#32 := by
  decide

/-! ### One step of each command -/

/-- The state after the step, where there is one. -/
def nextOf (o : Host.Outcome State Fault Refusal) : Option State :=
  match o with
  | .next t => some t
  | .fault _ => none
  | .refused _ => none

/-- STATUS and ERRINFO as the host reads them after one step from `s` with word `w` accepted. -/
def reportAfter (s : State) (w : Nat) : Option (Nat × Nat) :=
  (nextOf (step (s.withFetchWord 32 w))).map fun t => (t.statusWord.toNat, t.errinfoWord.toNat)

/-- The byte at `addr` after one step from `s` with word `w` accepted. -/
def bytesAfter (s : State) (w addr len : Nat) : Option Nat :=
  (nextOf (step (s.withFetchWord 32 w))).map fun t => beInt (t.mem.readBytes addr len)

/-- Reset with `len` bytes of value `v` in a buffer. -/
def withBytes (s : State) (b : Buf) (v len : Nat) : State := s.setBuf b (beBytes v len)

/-- The key n = 61, k = 1 (V14) loaded, with one byte each in EBUF, ABUF, BBUF, RBUF. -/
def key61 (e a b r : Nat) : State :=
  let s := withBytes (withBytes (withBytes (withBytes (withBytes State.reset .nbuf 61 1) .ebuf e 1) .abuf a 1) .bbuf b 1) .rbuf r 1
  { s with klen := 1#16, keyok := true, n0inv := 0x3EF368EB#32, rr := 0x10 }

/-- V13a. -/
theorem test_nop_from_reset : reportAfter State.reset 0x00000000 = some (0x02, 0) := by decide
/-- V13b. -/
theorem test_nop_upper_bit_from_reset : reportAfter State.reset 0x00000100 = some (0x04, 1) := by decide
/-- V14, n = 61. -/
theorem test_minit_61 :
    (nextOf (step ({ withBytes State.reset .nbuf 61 1 with klen := 1#16 }.withFetchWord 32 1))).map
      (fun t => (t.n0inv.toNat, t.rr, t.statusWord.toNat)) = some (0x3EF368EB, 0x10, 0x0A) := by decide +kernel
/-- V15, leading byte zero. -/
theorem test_minit_leading_zero :
    reportAfter { withBytes State.reset .nbuf 0x003D 2 with klen := 2#16 } 0x00000001 = some (0x04, 4) := by decide +kernel
/-- V16, 5·7·15 mod 61. -/
theorem test_montmul_61 : bytesAfter (key61 0 5 7 0) 0x00001002 0x1400 1 = some 0x25 := by decide +kernel
/-- V16, E_RANGE. -/
theorem test_montmul_range : reportAfter (key61 0 61 5 0) 0x00001002 = some (0x0C, 5) := by decide +kernel
/-- V17, operands at or above n. -/
theorem test_modmul_61 : bytesAfter (key61 0 200 250 0) 0x00001003 0x1400 1 = some 0x29 := by decide +kernel
/-- V17, the source is the destination. -/
theorem test_modsqr_61 : bytesAfter (key61 0 0 0 28) 0x00002203 0x1400 1 = some 0x34 := by decide +kernel
/-- V18, base at or above n. -/
theorem test_modexp_61 : bytesAfter (key61 255 255 0 0) 0x00000004 0x1400 1 = some 0x32 := by decide +kernel
/-- V18, 0^0 = 1. -/
theorem test_modexp_zero_zero : bytesAfter (key61 0 0 0 9) 0x00000004 0x1400 1 = some 0x01 := by decide +kernel
/-- V21, "abc". -/
theorem test_hash_abc :
    bytesAfter { withBytes State.reset .mbuf 0x616263 3 with mlen := 3#16, llen := 300#16 } 0x00000310 0x0060 32 =
      some 0xba7816bf8f01cfea414140de5dae2223b00361a396177a9cb410ff61f20015ad := by decide +kernel
/-- V21, an LLEN that does not fit. -/
theorem test_hash_label_too_long : reportAfter { State.reset with llen := 300#16 } 0x00000410 = some (0x04, 2) := by
  decide +kernel
/-- V23, bytes beyond L are untouched. -/
theorem test_mgf1_abc :
    bytesAfter { withBytes (withBytes State.reset .mbuf 0x616263 3) .rbuf 0x0102030405060708 8 with mlen := 3#16 }
      0x00050011 0x1400 8 = some 0xcf2db1ac98060708 := by decide +kernel
/-- V13j. -/
theorem test_mgf1_too_long : reportAfter State.reset 0xFFFF0011 = some (0x04, 2) := by decide +kernel
/-- V31, KLEN = 66, empty message. -/
theorem test_oaepenc_smallest :
    bytesAfter
      { withBytes State.reset .seed 0x000102030405060708090a0b0c0d0e0f101112131415161718191a1b1c1d1e1f 32 with
        klen := 66#16, seedSel := true } 0x00000020 0x0C00 66 =
      some 0x00c75627e067fc662bef1d26c3fe3b7b509e5cdcb082956c87493e40fdf66b895d9344c47fca4af717407eda5bbc04e0a2927ac9d4fc20ea3f18c681d71e31c2d105 := by
  decide +kernel
/-- V34, KLEN = 65. -/
theorem test_oaepenc_too_long : reportAfter { State.reset with klen := 65#16 } 0x00000020 = some (0x04, 6) := by
  decide +kernel

/-- A reset block with an 80-byte block in ABUF. -/
def withBlock80 (v : Nat) : State := { withBytes State.reset .abuf v 80 with klen := 80#16 }

/-- V31, a message 00 01 00. -/
theorem test_oaepdec_zeros_in_message :
    (nextOf (step ((withBlock80 0x00ee3bdb2dc9b8ee8edbb9281ca6e228037b2caecede95c6eb1d3b7b42ee8ee4d89344c47fca4af717407eda5bbc04e0a2927ac9d4fc20ea3f18c681d71e31c2d104a6950a06d3e3308ad7d3616ef910).withFetchWord
      32 0x00000021))).map (fun t => (t.mlen.toNat, beInt (t.mem.readBytes 0x1800 3), t.statusWord.toNat)) =
      some (3, 0x000100, 0x02) := by
  decide +kernel
/-- V33, a non-zero byte before the separator, with a non-zero leading byte. -/
theorem test_oaepdec_separator_first :
    reportAfter (withBlock80 0x8084c5ddf60b52358d2abfe618e876c534a381ca09c01887c61175a437b83db8559344c47fca4af717407eda5bbc04e0a2927ac9d4fc20ea3f18c681d71e31c2d104a6950a06d1e251e8b4b705089f78)
      0x00000021 = some (0x04, 0x307) := by
  decide +kernel

/-! ### Host procedures: what is decided before the block is touched -/

/-- 45_host_procedures.md R208; R206 with k = 66, where no message byte fits; an exponent of 256^k. -/
theorem test_encrypt_refuses :
    ((encryptMessage 65537 (2 ^ 527 + 1) []).run State.reset).1 = .error .emptyMessage ∧
      ((encryptMessage 65537 (2 ^ 527 + 1) [0x78#8]).run State.reset).1 = .error .modulusTooShort ∧
      ((loadKey 61 256).run State.reset).1 = .error .exponentTooLong := by
  decide +kernel

/-- A key load that MINIT refuses with E_MODULUS (code 4, 41_montgomery.md R133) ends with an error. -/
theorem test_loadKey_even_modulus :
    ((loadKey 4 1).run State.reset).1 = .error (.commandError 0x04#32 0x04#32) := by
  decide +kernel

/-- 45_host_procedures.md R205: OAEPDEC's ERR is a decoding error. No encoded message has a length of one byte. -/
theorem test_decrypt_decoding_error :
    ((decryptMessage 1 3 [0x00#8, 0x00#8, 0x00#8, 0x01#8, 0x02#8]).run State.reset).1 = .error .decodingError := by
  decide +kernel

/-- 45_host_procedures.md R202: n = 2, n = 3 and even n. -/
theorem test_trivial_primes (draw : Nat → Nat) :
    (isProbablePrime 2 draw 5 State.reset).1 = true ∧ (isProbablePrime 3 draw 5 State.reset).1 = true ∧
      (isProbablePrime 4 draw 5 State.reset).1 = false := ⟨rfl, rfl, rfl⟩

/-! ### The hypotheses of the statements can be met

One concrete witness per statement with hypotheses, and per clause, at a boundary of its range where it has one. -/

/-- A busy block that has accepted word `w`. -/
def accepted (w : Word) : State := State.reset.accept w

theorem test_witness_round_trip : (Instr.montmul 2#4 0#4).WellFormed ∧ (Instr.mgf1 0xFFFF#16).WellFormed := by decide

theorem test_witness_reencode : decode 0xFFFF0011#32 = .instr (.mgf1 0xFFFF#16) := by decide

theorem test_witness_opcode_map :
    (Instr.oaepdec 2#4).row ∈ opcodeRows ∧ (Instr.oaepdec 2#4).row.candidate 0x00000221#32 = true ∧
      Instr.oaepdec 2#4 = (Instr.oaepdec 2#4).withFields 0x00000221#32 := by decide

theorem test_witness_candidate : ∃ r ∈ opcodeRows, r.candidate 0x0000FF02#32 = true := by decide

theorem test_witness_illegal_word :
    (accepted 0x00000005#32).busy = true ∧ ∀ i : Instr, i.WellFormed → encode i ≠ (accepted 0x00000005#32).cmdreg := by
  refine ⟨rfl, fun i _ h => ?_⟩
  have hop : opcodeField (encode i) = 5#8 := by rw [h]; decide
  cases i <;> simp [encode, Instr.opcode] at hop

theorem test_witness_step_runs_decoded :
    (accepted 0x00000221#32).busy = true ∧ decode (accepted 0x00000221#32).cmdreg = .instr (.oaepdec 2#4) ∧
      (accepted 0x00000221#32).inputs = [] ∧
      { accepted 0x00000221#32 with inputs := [.engine] }.inputs = Input.engine :: [] := by decide

theorem test_witness_step_runs_placed : decodeTableWord 32 0x00000310 = some (.hash 3#4) := by decide

theorem test_witness_turns :
    { State.reset with inputs := [.read 3#11] }.inputs = .read 3#11 :: [] ∧
      { State.reset with inputs := [.write 5#11 0#32] }.inputs = .write 5#11 0#32 :: [] ∧
      { State.reset with inputs := [.reset []] }.inputs = .reset [] :: [] ∧
      { State.reset with inputs := [.engine] }.inputs = .engine :: [] ∧ State.reset.busy = false ∧
      State.reset.inputs = [] := by decide

theorem test_witness_acceptance : byteAddr 5#11 = 0x14 ∧ State.reset.busy = false ∧ (accepted 0#32).busy = true := by
  decide

/-- The state of an OAEPENC that has passed its checks and waits for the entropy port, one byte short. -/
def waiting : State :=
  { accepted 0x00000020#32 with klen := 66#16, entropy := zeroBytes 31 }

theorem test_witness_completion :
    (∃ t, engineTurn (accepted 0#32) = .next t) ∧ (accepted 0#32).busy = true ∧ (accepted 0#32).done = false ∧
      (accepted 0#32).err = false := ⟨⟨_, rfl⟩, by decide⟩

theorem test_witness_waiting :
    engineTurn waiting = .next waiting ∧ waiting.busy = true ∧ waiting.done = false ∧ waiting.err = false :=
  ⟨rfl, by decide⟩

theorem test_witness_failed_command :
    ∃ t, completionStep (accepted 0x00001002#32) = .next t ∧ t.err = true ∧ (accepted 0x00001002#32).err = false :=
  ⟨(accepted 0x00001002#32).raiseError .nokey 0#8, rfl, by decide⟩

theorem test_witness_error_report :
    ∃ t, exec (.modexp 2#4) (accepted 0x00000204#32) = .next t ∧ t.err = true ∧ (Instr.modexp 2#4).WellFormed :=
  ⟨(accepted 0x00000204#32).raiseError .nokey 0#8, rfl, by decide⟩

theorem test_witness_error_entry : State.reset.done = false := by decide

theorem test_witness_nop :
    (accepted 0x00000100#32).busy = true ∧ opcodeField (accepted 0x00000100#32).cmdreg = 0x00#8 ∧
      (accepted 0x00000100#32).cmdreg ≠ 0#32 := by decide

theorem test_witness_minit :
    1 ≤ (key61 0 0 0 0).k ∧ (key61 0 0 0 0).k ≤ (key61 0 0 0 0).config.kmax ∧
      (key61 0 0 0 0).mem.read 0x0400 ≠ 0#8 ∧ (key61 0 0 0 0).modulus % 2 = 1 ∧ 3 ≤ (key61 0 0 0 0).modulus := by
  decide +kernel

/-- The least modulus, 3, and the greatest KLEN, 256. -/
theorem test_witness_minit_bounds :
    ({ withBytes State.reset .nbuf 3 1 with klen := 1#16 } : State).modulus = 3 ∧
      ({ withBytes State.reset .nbuf (2 ^ 2048 - 1) 256 with klen := 256#16 } : State).modulus % 2 = 1 := by
  decide +kernel

theorem test_witness_minit_param :
    State.reset.k = 0 ∧ State.reset.config.kmax < ({ State.reset with klen := 257#16 } : State).k := by decide

theorem test_witness_minit_modulus :
    ({ withBytes State.reset .nbuf 0x003D 2 with klen := 2#16 } : State).mem.read 0x0400 = 0#8 ∧
      ({ withBytes State.reset .nbuf 0x3C 1 with klen := 1#16 } : State).modulus % 2 = 0 ∧
      ({ withBytes State.reset .nbuf 1 1 with klen := 1#16 } : State).modulus < 3 := by decide +kernel

theorem test_witness_keyed_commands :
    (0#4, Buf.abuf) ∈ operandSelectors ∧ (2#4, Buf.rbuf) ∈ operandSelectors ∧ (key61 0 60 0 60).keyok = true ∧
      (key61 0 60 0 60).modulus % 2 = 1 ∧ 3 ≤ (key61 0 60 0 60).modulus ∧
      (key61 0 60 0 60).operand .abuf < (key61 0 60 0 60).modulus ∧
      (key61 0 60 0 60).operand .rbuf < (key61 0 60 0 60).modulus := by decide +kernel

theorem test_witness_keyed_errors :
    (1#4, Buf.bbuf) ∈ operandSelectors ∧ State.reset.keyok = false ∧ (key61 0 61 0 0).keyok = true ∧
      (key61 0 61 0 0).modulus ≤ (key61 0 61 0 0).operand .abuf ∧
      (key61 0 0 61 0).modulus ≤ (key61 0 0 61 0).operand .bbuf := by decide +kernel

theorem test_witness_montgomery_laws :
    (3 : Nat) % 2 = 1 ∧ (3 : Nat) < 256 ^ 1 ∧ radix 1 * 1 % 3 = 1 ∧ (255 : Nat) < 256 ^ 1 := by decide

theorem test_witness_word_serial :
    (61 * 0x3EF368EB + 1) % 2 ^ 32 = 0 ∧ 2 ^ 32 - 1 < radix 1 ∧ 60 < radix 1 ∧ (2 ^ 32 - 1) * 60 < radix 1 * 61 ∧
      61 < 256 ^ 1 := by decide

/-- MLEN = KMAX and LLEN = LMAX fit; one more does not. -/
theorem test_witness_lengths :
    ({ State.reset with mlen := 256#16 } : State).mlen.toNat ≤ State.reset.config.kmax ∧
      ({ State.reset with llen := 256#16 } : State).llen.toNat ≤ State.reset.config.lmax ∧
      (256#16 : Half).toNat ≤ State.reset.config.kmax ∧
      State.reset.config.kmax < ({ State.reset with mlen := 257#16 } : State).mlen.toNat ∧
      State.reset.config.lmax < ({ State.reset with llen := 257#16 } : State).llen.toNat ∧
      State.reset.config.kmax < (257#16 : Half).toNat := by decide

theorem test_witness_oaepenc_host_seed :
    ({ State.reset with klen := 66#16, seedSelL := true } : State).k ≤ State.reset.config.kmax ∧
      State.reset.llen.toNat ≤ State.reset.config.lmax ∧
      State.reset.mlen.toNat + 66 ≤ ({ State.reset with klen := 66#16, seedSelL := true } : State).k := by decide

theorem test_witness_oaepenc_drawn_seed :
    (zeroBytes 32).length = 32 ∧
      ({ State.reset with klen := 256#16, mlen := 190#16, entropy := zeroBytes 32 ++ [7#8] } : State).entropy =
        zeroBytes 32 ++ [7#8] ∧
      ({ State.reset with klen := 256#16, mlen := 190#16 } : State).mlen.toNat + 66 ≤
        ({ State.reset with klen := 256#16, mlen := 190#16 } : State).k ∧
      State.reset.seedSelL = false := by decide

/-- The state of `waiting` with 33 answers at the entropy port. -/
def drawing : State := { waiting with entropy := zeroBytes 32 ++ [7#8] }

/-- A step that draws. -/
theorem test_witness_turn_draws : ∃ t, step drawing = .next t ∧ t.entropy ≠ drawing.entropy := by
  have he : (nextOf (step drawing)).map State.entropy = some [7#8] := by decide +kernel
  obtain ⟨t, ht⟩ := applyInput_total (nextTurn drawing).1 (nextTurn drawing).2
  have hs : step drawing = .next t := ht
  rw [hs] at he
  refine ⟨t, hs, ?_⟩
  rw [Option.some.inj he]
  decide

theorem test_witness_oaepenc_stops :
    State.reset.config.kmax < ({ State.reset with klen := 257#16 } : State).k ∧
      ({ State.reset with klen := 65#16 } : State).k < State.reset.mlen.toNat + 66 ∧
      waiting.k ≤ waiting.config.kmax ∧ waiting.mlen.toNat + 66 ≤ waiting.k ∧ waiting.seedSelL = false ∧
      waiting.entropy.length < 32 := by decide

/-- V31: the smallest block, an empty message. -/
def smallestBlock : State :=
  { withBytes State.reset .rbuf
      0x00c75627e067fc662bef1d26c3fe3b7b509e5cdcb082956c87493e40fdf66b895d9344c47fca4af717407eda5bbc04e0a2927ac9d4fc20ea3f18c681d71e31c2d105
      66 with klen := 66#16 }

theorem test_witness_oaepdec :
    (2#4, Buf.rbuf) ∈ operandSelectors ∧ smallestBlock.k ≤ smallestBlock.config.kmax ∧
      smallestBlock.llen.toNat ≤ smallestBlock.config.lmax ∧
      oaepDecode (smallestBlock.mem.readBytes Buf.rbuf.base smallestBlock.k) smallestBlock.k
        (smallestBlock.mem.readBytes 0x1C00 smallestBlock.llen.toNat) = .msg [] := by decide +kernel

theorem test_witness_oaepdec_rejects :
    State.reset.config.lmax < ({ State.reset with llen := 257#16 } : State).llen.toNat ∧
      oaepDecode (({ State.reset with klen := 65#16 } : State).mem.readBytes Buf.abuf.base 65) 65
        (State.reset.mem.readBytes 0x1C00 0) = .fail 1#8 := ⟨by decide, rfl⟩

theorem test_witness_block_layout : ([] : List Byte).length + 66 ≤ 66 ∧ (zeroBytes 32).length = 32 := by decide

theorem test_witness_other_label : sha256 [0x6C#8, 0x62#8, 0x6C#8] ≠ sha256 [] := by decide +kernel

/-- V33: DB with a 02 after five zeros, and DB with zeros only, both with the empty label's hash. -/
theorem test_witness_separator :
    (oaepUnmask (beBytes
        0x0084c5ddf60b52358d2abfe618e876c534a381ca09c01887c61175a437b83db8559344c47fca4af717407eda5bbc04e0a2927ac9d4fc20ea3f18c681d71e31c2d104a6950a06d1e251e8b4b705089f78
        80) 80).drop 32 = zeroBytes 5 ++ 2#8 :: 1#8 :: [0x61#8, 0x62#8, 0x63#8, 0x64#8, 0x65#8, 0x66#8, 0x67#8, 0x68#8] := by
  decide +kernel

theorem test_witness_no_separator :
    (oaepUnmask (beBytes
        0x009cc994461f98737af25f4477b421bcb46ffbee5a4d25fc0db397fb2b9ada47d89344c47fca4af717407eda5bbc04e0a2927ac9d4fc20ea3f18c681d71e31c2d104a6950a06d3e3308ad7d3606ef810
        80) 80).drop 32 = zeroBytes 15 ∧
      (oaepUnmask (beBytes
        0x009cc994461f98737af25f4477b421bcb46ffbee5a4d25fc0db397fb2b9ada47d89344c47fca4af717407eda5bbc04e0a2927ac9d4fc20ea3f18c681d71e31c2d104a6950a06d3e3308ad7d3606ef810
        80) 80).take 32 = sha256 [] := by
  decide +kernel

theorem test_witness_message_follows :
    (oaepUnmask (smallestBlock.mem.readBytes 0x1400 66) 66).take 32 = sha256 [] ∧
      (oaepUnmask (smallestBlock.mem.readBytes 0x1400 66) 66).drop 32 = zeroBytes 0 ++ 0x01#8 :: [] := by
  decide +kernel

theorem test_witness_label_hash_differs : (oaepUnmask (zeroBytes 66) 66).take 32 ≠ sha256 [] := by decide +kernel

theorem test_witness_ill_formed : ¬ (Instr.hash 2#4).WellFormed := by decide

/-- The frames' hypothesis that a command gives a next state. -/
theorem test_witness_frames :
    (∃ t, exec (.montmul 0#4 1#4) (key61 0 5 7 0) = .next t) ∧ (∃ t, exec (.hash 3#4) State.reset = .next t) ∧
      (∃ t, exec .oaepenc waiting = .next t) ∧ (∃ t, exec (.oaepdec 2#4) smallestBlock = .next t) ∧
      (∃ t, exec .minit (key61 0 0 0 0) = .next t) := by
  refine ⟨?_, ?_, ?_, ?_, ?_⟩ <;> (rw [exec_eq_complete]; exact complete_total _ _)

/-- An OAEPENC address outside both slices it may store to, and at its edges. -/
theorem test_witness_frame_addresses :
    (0x0BFF < 0x0C00 ∧ 0x0060 ≤ 0x0BFF) ∧ 0x0C00 + waiting.k ≤ 0x0C42 ∧ 0x003F < 0x0040 := by decide

/-- First and last word of a buffer, at its own addresses: SEED, NBUF at KMAX = 256, LBUF. -/
theorem test_witness_buffer_word :
    State.reset.config.wf = true ∧ State.reset.busy = false ∧ State.reset.mem.wf = true ∧ Buf.seed ≠ .digest ∧
      Buf.seed.base ≤ byteAddr 0x10#11 ∧ byteAddr 0x10#11 < Buf.seed.base + Buf.seed.size State.reset.config ∧
      Buf.nbuf.base ≤ byteAddr 0x13F#11 ∧ byteAddr 0x13F#11 < Buf.nbuf.base + Buf.nbuf.size State.reset.config ∧
      Buf.lbuf.base ≤ byteAddr 0x73F#11 ∧ byteAddr 0x73F#11 < Buf.lbuf.base + Buf.lbuf.size State.reset.config := by
  decide

theorem test_witness_lock :
    (accepted 0#32).busy = true ∧ byteAddr 0x10#11 = 0x40 ∧ byteAddr 0x0F#11 = 0x3C ∧ byteAddr 5#11 = 0x14 ∧
      byteAddr 6#11 = 0x18 ∧ byteAddr 7#11 = 0x1C ∧ byteAddr 8#11 = 0x20 ∧ byteAddr 2#11 = 0x08 ∧
      byteAddr 3#11 = 0x0C := by decide

theorem test_witness_unmapped :
    byteAddr 0x0A#11 = 0x28 ∧ byteAddr 0x0F#11 = 0x3C ∧ unmappedDataByte State.reset.config (byteAddr 0x20#11) ∧
      unmappedDataByte State.reset.config (byteAddr 0xFF#11) ∧
      unmappedDataByte State.reset.config (byteAddr 0x140#11) ∧
      unmappedDataByte State.reset.config (byteAddr 0x7FF#11) :=
  ⟨by decide, by decide, .inl (by decide), .inl (by decide), .inr ⟨.nbuf, by decide⟩, .inr ⟨.lbuf, by decide⟩⟩

theorem test_witness_read_only :
    byteAddr 0#11 = 0x00 ∧ byteAddr 1#11 = 0x04 ∧ byteAddr 4#11 = 0x10 ∧ byteAddr 9#11 = 0x24 ∧
      0x60 ≤ byteAddr 0x18#11 ∧ byteAddr 0x1F#11 < 0x80 := by decide

theorem test_witness_config : State.reset.config.wf = true ∧ byteAddr 9#11 < 0x28 := by decide

theorem test_witness_reset_contents :
    Memory.wf [(0x400, 1#8), (0x1CFF, 2#8)] = true ∧
      ∀ c ∈ ([(0x400, 1#8), (0x1CFF, 2#8)] : Memory), largeByte State.reset.config c.1 = true := by decide

/-- A state with a key meets the invariant, and steps. -/
theorem test_witness_invariant : (key61 3 5 7 0).Inv ∧ ∃ t, step (key61 3 5 7 0) = .next t := by
  refine ⟨?_, _, rfl⟩
  refine ⟨by decide, by decide, ?_, by decide, by decide, by decide, by decide, by decide, by decide, by decide +kernel,
    fun _ => ⟨?_, ?_, ?_, ?_, ?_, ?_, ?_⟩⟩ <;> decide +kernel

/-- A transaction while a command runs. -/
theorem test_witness_disturb :
    (Input.write 0x500#11 5#32).isTransaction = true ∧ (accepted 0#32).busy = true ∧ (accepted 0#32).done = false ∧
      (accepted 0#32).err = false ∧ (∃ t, applyInput (.write 0x500#11 5#32) (accepted 0#32) = .next t) ∧
      ∃ t, engineTurn (accepted 0#32) = .next t := ⟨by decide, by decide, by decide, by decide, ⟨_, rfl⟩, ⟨_, rfl⟩⟩

/-- BUSY rises at a CMD write and falls at the engine's turn. -/
theorem test_witness_busy :
    (∃ t, applyInput (.write 5#11 0#32) State.reset = .next t ∧ State.reset.busy = false ∧ t.busy = true) ∧
      ∃ t, applyInput .engine (accepted 0#32) = .next t ∧ (accepted 0#32).busy = true ∧ t.busy = false :=
  ⟨⟨accepted 0#32, rfl, by decide⟩, ⟨(accepted 0#32).commit, rfl, by decide⟩⟩

theorem test_witness_host_only :
    (key61 3 5 7 0).Inv ∧ ∃ t, exec (.modexp 0#4) (key61 3 5 7 0) = .next t := by
  refine ⟨test_witness_invariant.1, ?_⟩
  rw [exec_eq_complete]
  exact complete_total _ _

end Sys2Proof.Tests
end

section
/-! The turns of the list of inputs and the entropy port (00_scope.md R13, 10_state.md R45, 20_memory.md R70). -/

namespace Sys2Proof.Machine

/-! ### Whose turn it is -/

/-- The first input of the list moves, on the state without it (20_memory.md R70). -/
theorem step_cons {s : State} {i : Input} {rest : List Input} (h : s.inputs = i :: rest) :
    step s = applyInput i { s with inputs := rest } := by
  simp only [step, nextTurn, h]

/-- With no input listed the engine moves (70_reset_and_hazards.md R261). -/
theorem step_nil {s : State} (h : s.inputs = []) : step s = engineTurn s := by
  simp only [step, nextTurn, h, applyInput]

theorem engineTurn_of_idle {s : State} (h : s.busy = false) : engineTurn s = .next s := by
  simp [engineTurn, h]

theorem engineTurn_of_busy {s : State} (h : s.busy = true) : engineTurn s = completionStep s := by
  simp [engineTurn, h]

/-! ### Who takes the entropy port's answers -/

@[simp] theorem hostRead_entropy (a : WordAddr) (s : State) : (hostRead a s).entropy = s.entropy := by
  rcases hostRead_cases a s with ⟨v, e⟩ | ⟨-, e⟩ <;> rw [e]

@[simp] theorem hostWrite_entropy (a : WordAddr) (v : Word) (s : State) : (hostWrite a v s).entropy = s.entropy := by
  rcases hostWrite_cases a v s with e | e | e | ⟨-, e⟩ | ⟨-, -, e⟩ | ⟨-, -, e⟩ | ⟨-, -, e⟩ | ⟨-, -, e⟩ |
    ⟨b, off, -, -, -, e⟩ <;> rw [e] <;> rfl

@[simp] theorem resetPin_entropy (contents : List Host.Cell) (s : State) :
    (resetPin contents s).entropy = s.entropy := rfl

/-- From `s` to `t` a busy block completes an OAEPENC with SEEDSEL_L = 0 and takes its 32 seed bytes off the entropy
port (10_state.md R45, 43_oaep.md R186). -/
structure DrawsSeed (s t : State) : Prop where
  busy : s.busy = true
  command : decode s.cmdreg = .instr .oaepenc
  seedSelL : s.seedSelL = false
  done : t.done = true
  taken : ∃ seed, seed.length = 32 ∧ s.entropy = seed ++ t.entropy

/-- The engine's turn takes bytes off the entropy port only to draw a seed. -/
theorem engineTurn_entropy {s t : State} (h : engineTurn s = .next t) (hne : t.entropy ≠ s.entropy) :
    DrawsSeed s t := by
  cases hb : s.busy with
  | false =>
    rw [engineTurn_of_idle hb] at h
    cases h
    exact absurd rfl hne
  | true =>
    rw [engineTurn_of_busy hb, completionStep] at h
    cases hd : decode s.cmdreg with
    | illegal why =>
      rw [hd] at h
      cases h
      exact absurd rfl hne
    | instr i =>
      rw [hd] at h
      obtain hkeep | ⟨rfl, hsel, hlen, hdone, hdrop⟩ := exec_entropy h
      · exact absurd hkeep hne
      · refine ⟨hb, hd, hsel, hdone, s.entropy.take 32, by simp [hlen], ?_⟩
        rw [hdrop, List.take_append_drop]

/-- No other turn than the engine's changes the entropy port's answers (00_scope.md R13). -/
theorem applyInput_entropy {i : Input} {s t : State} (h : applyInput i s = .next t) (hne : t.entropy ≠ s.entropy) :
    i = .engine ∧ DrawsSeed s t := by
  cases i with
  | read a => cases h; exact absurd (hostRead_entropy a s) hne
  | write a v => cases h; exact absurd (hostWrite_entropy a v s) hne
  | engine => exact ⟨rfl, engineTurn_entropy h hne⟩
  | reset contents => cases h; exact absurd (resetPin_entropy contents s) hne

/-- A step that changes the entropy port's answers is an engine's turn that draws a seed. -/
theorem step_entropy {s t : State} (h : step s = .next t) (hne : t.entropy ≠ s.entropy) :
    (s.inputs = [] ∨ ∃ rest, s.inputs = .engine :: rest) ∧ DrawsSeed s t := by
  cases hi : s.inputs with
  | nil =>
    rw [step_nil hi] at h
    exact ⟨.inl rfl, engineTurn_entropy h hne⟩
  | cons i rest =>
    rw [step_cons hi] at h
    obtain ⟨rfl, hbusy, hcmd, hsel, hdone, htaken⟩ := applyInput_entropy h hne
    exact ⟨.inr ⟨rest, rfl⟩, hbusy, hcmd, hsel, hdone, htaken⟩

/-- Settles O9: the list decides whose turn it is, and `step_entropy` says which turn takes the port's answers. -/
theorem stepTakesTurnsInOrder : Obligations.StepTakesTurnsInOrder := by
  unfold Obligations.StepTakesTurnsInOrder
  intro s rest
  refine ⟨fun _ => step_cons, fun _ _ => step_cons, fun _ => step_cons, step_cons, fun hidle h => ?_, step_nil,
    fun hidle h => ?_, fun t h hne => ?_⟩
  · rw [step_cons h]
    exact engineTurn_of_idle hidle
  · rw [step_nil h, engineTurn_of_idle hidle]
  · obtain ⟨hturn, hbusy, hcmd, hsel, hdone, htaken⟩ := step_entropy h hne
    exact ⟨hturn, hbusy, hcmd, hsel, hdone, htaken⟩

end Sys2Proof.Machine
end

section
/-! What stores into buffers can do, and which of them a command makes, each said once (10_state.md R38, R46,
40_command_execution.md R112-R114). -/

namespace Sys2Proof.Machine

/-! ### Stores into buffers -/

/-- `m'` is `m` after byte-string stores that stay within the buffers `bs` (10_state.md R38, 40_command_execution.md
R114). -/
inductive Stores (c : Config) (bs : List Buf) (m : Memory) : Memory → Prop where
  | none : Stores c bs m m
  | store {m' : Memory} (h : Stores c bs m m') {b : Buf} (hb : b ∈ bs) (off : Nat) (bytes : List Byte)
      (hfit : off + bytes.length ≤ b.size c) : Stores c bs m (m'.writeBytes (b.base + off) bytes)

namespace Stores

variable {c : Config} {bs : List Buf} {m m' : Memory}

/-- A store of a slice that starts where the buffer does. -/
theorem slice (h : Stores c bs m m') {b : Buf} (hb : b ∈ bs) (bytes : List Byte) (hfit : bytes.length ≤ b.size c) :
    Stores c bs m (m'.writeBytes b.base bytes) :=
  h.store hb 0 bytes (by omega)

theorem wf (h : Stores c bs m m') (hm : m.wf = true) : m'.wf = true := by
  induction h with
  | none => exact hm
  | store _ _ off bytes _ ih => exact Memory.writeBytes_wf _ _ _ ih

theorem mapped (h : Stores c bs m m') (hm : ∀ d ∈ m, mappedByte c d.1 = true) : ∀ d ∈ m', mappedByte c d.1 = true := by
  induction h with
  | none => exact hm
  | @store _ _ b _ off bytes hfit ih =>
    intro d hd
    rcases Memory.mem_writeBytes hd with hd | ⟨hlow, hhigh⟩
    · exact ih d hd
    · exact mappedByte_of_lt b (by omega) (by omega)

/-- A buffer that is not stored to keeps its bytes. -/
theorem read_other (h : Stores c bs m m') (hc : c.wf = true) {b : Buf} (hb : b ∉ bs) {j : Nat} (hj : j < b.size c) :
    m'.read (b.base + j) = m.read (b.base + j) := by
  induction h with
  | none => rfl
  | @store _ _ b' hb' off bytes hfit ih =>
    have hne : b ≠ b' := fun e => hb (e ▸ hb')
    rw [Memory.read_writeBytes_outside, ih]
    by_contra hin
    exact Buf.disjoint hc hne (j := b.base + j - b'.base) hj (by omega) (by omega)

theorem readBytes_other (h : Stores c bs m m') (hc : c.wf = true) {b : Buf} (hb : b ∉ bs) {len : Nat}
    (hlen : len ≤ b.size c) : m'.readBytes b.base len = m.readBytes b.base len := by
  simp only [Memory.readBytes, List.map_inj_left, List.mem_range]
  exact fun j hj => h.read_other hc hb (by omega)

end Stores

/-! ### What the commands store -/

theorem State.sameOutside_config {s w : State} (h : s.sameOutside w) : w.config = s.config := by
  rw [State.sameOutside] at h
  rw [h]

theorem State.sameOutside_klen {s w : State} (h : s.sameOutside w) : w.klen = s.klen := by
  rw [State.sameOutside] at h
  rw [h]

theorem State.sameOutside_report {s w : State} (h : s.sameOutside w) :
    w.err = s.err ∧ w.errCode = s.errCode ∧ w.errSub = s.errSub := by
  rw [State.sameOutside] at h
  rw [h]
  exact ⟨rfl, rfl, rfl⟩

/-- The buffers a command stores to (10_state.md R46). -/
def destinations : Instr → List Buf
  | .nop | .minit => []
  | .montmul _ _ | .modmul _ _ | .modexp _ | .mgf1 _ => [.rbuf]
  | .hash _ => [.digest]
  | .oaepenc => [.seed, .abuf]
  | .oaepdec _ => [.mbuf]

/-- Only HASH stores to DIGEST (10_state.md R46). -/
theorem digest_not_mem_destinations {i : Instr} (h : ∀ sa, i ≠ .hash sa) : Buf.digest ∉ destinations i := by
  cases i with
  | hash sa => exact absurd rfl (h sa)
  | _ => simp [destinations]

/-- No command stores to the buffers that the host alone writes (10_state.md R38). -/
theorem hostOnly_not_mem_destinations (i : Instr) {b : Buf} (h : b = .nbuf ∨ b = .ebuf ∨ b = .bbuf ∨ b = .lbuf) :
    b ∉ destinations i := by
  rcases h with rfl | rfl | rfl | rfl <;> cases i <;> simp [destinations]

/-- What the successful command `i` writes: its destination buffers, within their sizes, and the key constants only as
MINIT. -/
structure State.Writes (s : State) (i : Instr) (w : State) : Prop where
  stores : Stores s.config (destinations i) s.mem w.mem
  constants : i ≠ .minit → w.keyok = s.keyok ∧ w.n0inv = s.n0inv ∧ w.rr = s.rr

/-- A command that writes one slice of a destination buffer. -/
theorem State.Writes.setBuf {s : State} {i : Instr} {b : Buf} (hb : b ∈ destinations i) {bytes : List Byte}
    (hfit : bytes.length ≤ b.size s.config) : s.Writes i (s.setBuf b bytes) where
  stores := Stores.none.slice hb bytes hfit
  constants _ := ⟨rfl, rfl, rfl⟩

/-- OAEPENC writes ABUF, and SEED before it when it draws its seed (43_oaep.md R182, R186). -/
theorem oaepenc_writes {s w : State} (h : oaepenc s = .ok w) : s.Writes .oaepenc w := by
  obtain ⟨hk, -, hmsg, seed, u, hseed, rfl⟩ := oaepenc_ok h
  have hlen := oaepSeed_length hseed
  have hfit : (oaepEncode s.message s.k s.label seed).length ≤ Buf.abuf.size s.config := by
    rw [oaepEncode_length _ _ _ _ (by simpa [State.message] using hmsg) hlen]
    exact hk
  rcases oaepSeed_some hseed with ⟨-, -, rfl⟩ | ⟨-, -, -, rfl⟩
  · exact .setBuf (by simp [destinations]) hfit
  · have hseedStore : Stores s.config (destinations .oaepenc) s.mem (s.mem.writeBytes Buf.seed.base seed) :=
      Stores.none.slice (by simp [destinations]) seed hlen.le
    exact ⟨hseedStore.slice (by simp [destinations]) _ hfit, fun _ => ⟨rfl, rfl, rfl⟩⟩

/-- OAEPDEC writes MBUF, with a message shorter than the block (43_oaep.md R184). -/
theorem oaepdec_writes {sa : Selector} {b : Buf} {s w : State} (h : oaepdec b s = .ok w) :
    s.Writes (.oaepdec sa) w := by
  obtain ⟨hk, -, m, hm, rfl⟩ := oaepdec_ok h
  have hlen := oaepDecode_msg_length (State.buf_length s b s.k) hm
  have hfit : m.length ≤ Buf.mbuf.size s.config := (by omega : m.length ≤ s.config.kmax)
  exact ⟨Stores.none.slice (by simp [destinations]) m hfit, fun _ => ⟨rfl, rfl, rfl⟩⟩

/-- What a successful command writes, whichever it is. KEYOK = 1 bounds the result of the Montgomery unit. -/
theorem commandResult_writes {i : Instr} {s w : State} (hkey : s.keyok = true → s.k ≤ s.config.kmax)
    (h : commandResult i s = .ok w) : s.Writes i w := by
  have hresult : ∀ v, s.keyok = true → (beBytes v s.k).length ≤ Buf.rbuf.size s.config := fun v hk => by
    rw [beBytes_length]
    exact hkey hk
  cases i with
  | nop => cases h; exact ⟨.none, fun _ => ⟨rfl, rfl, rfl⟩⟩
  | minit => obtain ⟨-, -, -, -, -, rfl⟩ := minit_ok h; exact ⟨.none, fun hne => absurd rfl hne⟩
  | montmul sa sb =>
    simp only [commandResult] at h
    split at h
    · obtain ⟨hk, -, -, rfl⟩ := montmul_ok h; exact .setBuf (by simp [destinations]) (hresult _ hk)
    · cases h
  | modmul sa sb =>
    simp only [commandResult] at h
    split at h
    · obtain ⟨hk, rfl⟩ := modmul_ok h; exact .setBuf (by simp [destinations]) (hresult _ hk)
    · cases h
  | modexp sa =>
    simp only [commandResult] at h
    split at h
    · obtain ⟨hk, rfl⟩ := modexp_ok h; exact .setBuf (by simp [destinations]) (hresult _ hk)
    · cases h
  | hash sa =>
    simp only [commandResult] at h
    split at h
    · obtain ⟨-, rfl⟩ := hash_ok h; exact .setBuf (by simp [destinations]) (sha256_length _).le
    · cases h
  | mgf1 len =>
    obtain ⟨-, hlen, rfl⟩ := mgf1_ok h
    exact .setBuf (by simp [destinations]) ((mgf1Mask_length _ _).trans_le hlen)
  | oaepenc => exact oaepenc_writes h
  | oaepdec sa =>
    simp only [commandResult] at h
    split at h
    · exact oaepdec_writes h
    · cases h

end Sys2Proof.Machine
end

section
/-! Every step keeps the invariant of the block, which holds after reset (10_state.md R28, R29, R31, R51, 60_exceptions.md
R221, R222). The invariant has two parts that no turn mixes: the report, STATUS and ERRINFO; and the stored data. -/

namespace Sys2Proof.Machine

/-! ### The two parts of the invariant -/

/-- The part of the invariant about BUSY, DONE, ERR and ERRINFO (10_state.md R28, R31, 60_exceptions.md R221, R222). -/
structure ReportInv (busy done err : Bool) (errCode errSub : BitVec 8) : Prop where
  one_flag : ¬(done = true ∧ err = true)
  busy_clean : busy = true → done = false ∧ err = false ∧ errCode = 0#8 ∧ errSub = 0#8
  done_clean : done = true → errCode = 0#8 ∧ errSub = 0#8
  err_code : err = true → errCode ≠ 0#8
  code_known : errCode.toNat ≤ 7
  sub_known : errSub.toNat ≤ 5 ∧ (errSub ≠ 0#8 ↔ errCode = ErrCode.decode.number)

/-- The report of a state meets its part of the invariant. -/
abbrev State.ReportInv (s : State) : Prop := Machine.ReportInv s.busy s.done s.err s.errCode s.errSub

/-- The part of the invariant about the parameters, the buffers and the key constants (00_scope.md R6, 10_state.md R20,
R29, 20_memory.md R61). -/
structure State.DataInv (s : State) : Prop where
  config_wf : s.config.wf = true
  mem_wf : s.mem.wf = true
  mem_mapped : ∀ c ∈ s.mem, mappedByte s.config c.1 = true
  rr_lt : s.rr < 2 ^ (8 * s.config.kmax)
  key : s.keyok = true → s.KeyConstants

theorem State.inv_iff (s : State) : s.Inv ↔ s.ReportInv ∧ s.DataInv where
  mp h := ⟨⟨h.one_flag, h.busy_clean, h.done_clean, h.err_code, h.code_known, h.sub_known⟩,
    ⟨h.config_wf, h.mem_wf, h.mem_mapped, h.rr_lt, h.key⟩⟩
  mpr h := ⟨h.2.config_wf, h.2.mem_wf, h.2.mem_mapped, h.1.one_flag, h.1.busy_clean, h.1.done_clean, h.1.err_code,
    h.1.code_known, h.1.sub_known, h.2.rr_lt, h.2.key⟩

/-! ### The report -/

/-- Without an error and with ERRINFO 0, DONE and BUSY may be anything but both 1. -/
theorem ReportInv.clean {busy done : Bool} (h : busy = true → done = false) : ReportInv busy done false 0#8 0#8 where
  one_flag := by simp
  busy_clean hb := ⟨h hb, rfl, rfl, rfl⟩
  done_clean _ := ⟨rfl, rfl⟩
  err_code := by simp
  code_known := by decide
  sub_known := by decide

/-- The host may clear DONE and ERR at any time (10_state.md R26). -/
theorem ReportInv.clear {busy done err : Bool} {code sub : BitVec 8} (h : ReportInv busy done err code sub)
    (keepDone keepErr : Bool) : ReportInv busy (done && keepDone) (err && keepErr) code sub where
  one_flag hf := h.one_flag ⟨(Bool.and_eq_true_iff.1 hf.1).1, (Bool.and_eq_true_iff.1 hf.2).1⟩
  busy_clean hb := by
    obtain ⟨hd, he, hcode, hsub⟩ := h.busy_clean hb
    exact ⟨by simp [hd], by simp [he], hcode, hsub⟩
  done_clean hd := h.done_clean (Bool.and_eq_true_iff.1 hd).1
  err_code he := h.err_code (Bool.and_eq_true_iff.1 he).1
  code_known := h.code_known
  sub_known := h.sub_known

/-- A code and a sub-code that a command may end with: E_DECODE has one of 1 to 5, the others 0 (60_exceptions.md
R222). -/
def ErrCode.Admits (code : ErrCode) (sub : BitVec 8) : Prop := sub.toNat ≤ 5 ∧ (sub ≠ 0#8 ↔ code = .decode)

theorem commandResult_admits {i : Instr} {s : State} {code : ErrCode} {sub : BitVec 8}
    (h : commandResult i s = .err code sub) : code.Admits sub := by
  rcases commandResult_err h with ⟨hne, rfl⟩ | ⟨rfl, rfl | rfl | rfl | rfl | rfl⟩
  · exact ⟨by decide, by simp [hne]⟩
  all_goals exact ⟨by decide, by decide⟩

/-- An error of a block without DONE (60_exceptions.md R224). -/
theorem ReportInv.failed {code : ErrCode} {sub : BitVec 8} (h : code.Admits sub) :
    ReportInv false false true code.number sub where
  one_flag := by simp
  busy_clean := by simp
  done_clean := by simp
  err_code _ := by cases code <;> decide
  code_known := by cases code <;> decide
  sub_known := ⟨h.1, h.2.trans (by cases code <;> decide)⟩

/-! ### The stored data -/

/-- The key constants depend on the parameters, KLEN, NBUF, N0INV and RR only. -/
theorem State.KeyConstants.of_same {s t : State} (h : s.KeyConstants) (hconfig : t.config = s.config)
    (hklen : t.klen = s.klen) (hn : t.buf .nbuf s.k = s.buf .nbuf s.k)
    (hbyte : t.mem.read Buf.nbuf.base = s.mem.read Buf.nbuf.base) (hn0 : t.n0inv = s.n0inv) (hrr : t.rr = s.rr) :
    t.KeyConstants := by
  have hk : t.k = s.k := congrArg BitVec.toNat hklen
  have hmod : t.modulus = s.modulus := by rw [State.modulus, hk, hn, State.modulus]
  constructor
  · rw [hk]; exact h.klen_pos
  · rw [hk, hconfig]; exact h.klen_le
  · rw [hmod]; exact h.modulus_odd
  · rw [hmod]; exact h.three_le_modulus
  · rw [hbyte]; exact h.leading_byte
  · rw [hmod, hn0]; exact h.n0inv_eq
  · rw [hmod, hk, hrr]; exact h.rr_eq

/-- Stores into buffers keep the key constants unless they touch NBUF. -/
theorem State.KeyConstants.of_stores {s t : State} {bs : List Buf} (h : s.KeyConstants) (hc : s.config.wf = true)
    (hstores : Stores s.config bs s.mem t.mem) (hn : Buf.nbuf ∉ bs) (hconfig : t.config = s.config)
    (hklen : t.klen = s.klen) (hn0 : t.n0inv = s.n0inv) (hrr : t.rr = s.rr) : t.KeyConstants := by
  have hpos : 0 < Buf.nbuf.size s.config := h.klen_pos.trans h.klen_le
  exact h.of_same hconfig hklen (hstores.readBytes_other hc hn h.klen_le) (hstores.read_other hc hn (j := 0) hpos) hn0 hrr

/-- Stores into buffers keep the data's invariant, if KEYOK = 1 afterwards means that the key is as before. -/
theorem State.DataInv.of_stores {s t : State} {bs : List Buf} (h : s.DataInv) (hconfig : t.config = s.config)
    (hstores : Stores s.config bs s.mem t.mem) (hrr : t.rr = s.rr)
    (hkey : t.keyok = true → s.keyok = true ∧ Buf.nbuf ∉ bs ∧ t.klen = s.klen ∧ t.n0inv = s.n0inv) : t.DataInv where
  config_wf := hconfig ▸ h.config_wf
  mem_wf := hstores.wf h.mem_wf
  mem_mapped := hconfig ▸ hstores.mapped h.mem_mapped
  rr_lt := by rw [hrr, hconfig]; exact h.rr_lt
  key hk := by
    obtain ⟨hks, hn, hklen, hn0⟩ := hkey hk
    exact (h.key hks).of_stores h.config_wf hstores hn hconfig hklen hn0 hrr

/-- A state with the same parameters, memory, KEYOK, KLEN, N0INV and RR. -/
theorem State.DataInv.of_same {s t : State} (h : s.DataInv) (hconfig : t.config = s.config) (hmem : t.mem = s.mem)
    (hrr : t.rr = s.rr) (hkeyok : t.keyok = s.keyok) (hklen : t.klen = s.klen) (hn0 : t.n0inv = s.n0inv) :
    t.DataInv :=
  h.of_stores (bs := []) hconfig (hmem ▸ .none) hrr fun hk => ⟨hkeyok ▸ hk, List.not_mem_nil, hklen, hn0⟩

/-- A state with the same parameters, memory and RR, and KEYOK = 0. -/
theorem State.DataInv.of_keyless {s t : State} (h : s.DataInv) (hconfig : t.config = s.config) (hmem : t.mem = s.mem)
    (hrr : t.rr = s.rr) (hkeyok : t.keyok = false) : t.DataInv :=
  h.of_stores (bs := []) hconfig (hmem ▸ .none) hrr fun hk => absurd hk (by simp [hkeyok])

/-! ### MINIT -/

/-- The last byte of NBUF[0:k] holds the modulus's lowest bit (00_scope.md R10). -/
theorem modulus_mod_two {s : State} (hk : s.k ≠ 0) :
    s.modulus % 2 = (s.mem.read (Buf.nbuf.base + (s.k - 1))).toNat % 2 := by
  obtain ⟨j, hj⟩ := Nat.exists_eq_succ_of_ne_zero hk
  rw [State.modulus, State.buf, Memory.readBytes, hj, List.range_succ, List.map_append, List.map_singleton,
    beInt_append_one, Nat.succ_sub_one]
  omega

theorem modulus_lt (s : State) : s.modulus < 256 ^ s.k := by
  have h := beInt_lt (s.buf .nbuf s.k)
  rwa [State.buf_length] at h

/-- MINIT leaves the constants of the present modulus (41_montgomery.md R133). -/
theorem minit_dataInv {s w : State} (hs : s.DataInv) (h : minit s = .ok w) : w.DataInv := by
  obtain ⟨hk0, hkmax, hlead, hlast, hn3, rfl⟩ := minit_ok h
  have hodd : s.modulus % 2 = 1 := by
    rw [modulus_mod_two hk0, Nat.mod_two_eq_one_iff_testBit_zero]
    exact hlast
  have hrr : radixSquared s.modulus s.k < 2 ^ (8 * s.config.kmax) := calc
    radixSquared s.modulus s.k < s.modulus := Nat.mod_lt _ (by omega)
    _ < 256 ^ s.k := modulus_lt s
    _ = 2 ^ (8 * s.k) := by rw [pow_mul]; norm_num
    _ ≤ 2 ^ (8 * s.config.kmax) := Nat.pow_le_pow_right (by norm_num) (by omega)
  have hn0 : (BitVec.ofNat 32 (negInvWord s.modulus)).toNat = negInvWord s.modulus :=
    Nat.mod_eq_of_lt (negInvWord_lt _ hodd)
  refine ⟨hs.config_wf, hs.mem_wf, hs.mem_mapped, hrr, fun _ => ?_⟩
  exact
    { klen_pos := Nat.pos_of_ne_zero hk0
      klen_le := hkmax
      modulus_odd := hodd
      three_le_modulus := hn3
      leading_byte := hlead
      n0inv_eq := (congrArg (fun x => (s.modulus * x + 1) % 2 ^ 32) hn0).trans (negInvWord_spec _ hodd)
      rr_eq := rfl }

/-! ### The turns -/

theorem hostRead_inv {s : State} (hs : s.Inv) (a : WordAddr) : (hostRead a s).Inv := by
  obtain ⟨hreport, hdata⟩ := s.inv_iff.1 hs
  rcases hostRead_cases a s with ⟨v, e⟩ | ⟨-, e⟩ <;> rw [e, State.inv_iff] <;>
    exact ⟨hreport, hdata.of_same rfl rfl rfl rfl rfl rfl⟩

/-- A port word is stored within its buffer, and one of NBUF clears KEYOK (20_memory.md R63, R65, 10_state.md R29). -/
theorem portStore_dataInv {s : State} (hs : s.DataInv) {a : WordAddr} {b : Buf} {off : Nat}
    (hplace : place s.config a = .buffer b off) (v : Word) :
    State.DataInv { s.writeWord (b.base + off) v with keyok := if b = .nbuf then false else s.keyok } := by
  have hfit : off + (bytesOfWord v).length ≤ b.size s.config := place_buffer_word hs.config_wf hplace
  refine hs.of_stores (bs := [b]) rfl (Stores.none.store (List.mem_singleton_self b) off _ hfit) rfl fun hk => ?_
  by_cases hb : b = .nbuf
  · simp [hb] at hk
  · exact ⟨by simpa [hb] using hk, by simpa using Ne.symm hb, rfl, rfl⟩

theorem hostWrite_inv {s : State} (hs : s.Inv) (a : WordAddr) (v : Word) : (hostWrite a v s).Inv := by
  obtain ⟨hreport, hdata⟩ := s.inv_iff.1 hs
  rcases hostWrite_cases a v s with e | e | e | ⟨-, e⟩ | ⟨-, -, e⟩ | ⟨-, -, e⟩ | ⟨-, -, e⟩ | ⟨-, -, e⟩ |
    ⟨b, off, -, hplace, -, e⟩ <;> rw [e, State.inv_iff]
  · exact ⟨hreport, hdata⟩
  · exact ⟨hreport, hdata.of_same rfl rfl rfl rfl rfl rfl⟩
  · exact ⟨hreport.clear _ _, hdata.of_same rfl rfl rfl rfl rfl rfl⟩
  · exact ⟨hreport, hdata.of_same rfl rfl rfl rfl rfl rfl⟩
  · exact ⟨.clean fun _ => rfl, hdata.of_same rfl rfl rfl rfl rfl rfl⟩
  · exact ⟨hreport, hdata.of_keyless rfl rfl rfl rfl⟩
  · exact ⟨hreport, hdata.of_same rfl rfl rfl rfl rfl rfl⟩
  · exact ⟨hreport, hdata.of_same rfl rfl rfl rfl rfl rfl⟩
  · exact ⟨hreport, portStore_dataInv hdata hplace v⟩

/-- Everything the engine's turn can do (40_command_execution.md R112, R113): nothing, a completion, an error. -/
theorem engineTurn_cases {s t : State} (h : engineTurn s = .next t) :
    t = s ∨ (s.busy = true ∧ ∃ i w, commandResult i s = .ok w ∧ t = w.commit) ∨
      (s.busy = true ∧ ∃ code sub, ErrCode.Admits code sub ∧ t = s.raiseError code sub) := by
  cases hb : s.busy with
  | false =>
    rw [engineTurn_of_idle hb] at h
    cases h
    exact .inl rfl
  | true =>
    rw [engineTurn_of_busy hb, completionStep] at h
    split at h
    · next i _ =>
      rw [exec_eq_complete] at h
      obtain ⟨w, hr, rfl⟩ | ⟨code, sub, hr, rfl⟩ | ⟨-, rfl⟩ := complete_next h
      · exact .inr (.inl ⟨rfl, i, w, hr, rfl⟩)
      · exact .inr (.inr ⟨rfl, code, sub, commandResult_admits hr, rfl⟩)
      · exact .inl rfl
    · cases h
      exact .inr (.inr ⟨rfl, .opcode, 0#8, ⟨by decide, by decide⟩, rfl⟩)

/-- What a successful command leaves meets the data's invariant. -/
theorem commandResult_dataInv {i : Instr} {s w : State} (hs : s.DataInv) (h : commandResult i s = .ok w) :
    w.DataInv := by
  by_cases hi : i = .minit
  · subst hi
    exact minit_dataInv hs h
  · have hsame := commandResult_ok h
    obtain ⟨hstores, hconstants⟩ := commandResult_writes (fun hk => (hs.key hk).klen_le) h
    obtain ⟨hkeyok, hn0, hrr⟩ := hconstants hi
    refine hs.of_stores (State.sameOutside_config hsame) hstores hrr fun hk => ?_
    exact ⟨hkeyok ▸ hk, hostOnly_not_mem_destinations i (.inl rfl), State.sameOutside_klen hsame, hn0⟩

/-- A successful end of a running command leaves DONE alone set (10_state.md R28). -/
theorem commit_reportInv {i : Instr} {s w : State} (hs : s.ReportInv) (hb : s.busy = true)
    (h : commandResult i s = .ok w) : w.commit.ReportInv := by
  obtain ⟨hwerr, hwcode, hwsub⟩ := State.sameOutside_report (commandResult_ok h)
  obtain ⟨-, herr, hcode, hsub⟩ := hs.busy_clean hb
  rw [State.ReportInv, State.commit_err, State.commit_errCode, State.commit_errSub, hwerr, hwcode, hwsub, herr, hcode,
    hsub]
  exact .clean nofun

theorem engineTurn_inv {s t : State} (hs : s.Inv) (h : engineTurn s = .next t) : t.Inv := by
  obtain ⟨hreport, hdata⟩ := s.inv_iff.1 hs
  rcases engineTurn_cases h with rfl | ⟨hb, i, w, hr, rfl⟩ | ⟨hb, code, sub, hadmits, rfl⟩
  · exact hs
  · refine (State.inv_iff _).2 ⟨commit_reportInv hreport hb hr, ?_⟩
    exact (commandResult_dataInv hdata hr).of_same rfl rfl rfl rfl rfl rfl
  · obtain ⟨hdone, -, -, -⟩ := hreport.busy_clean hb
    refine (State.inv_iff _).2 ⟨?_, hdata.of_same rfl rfl rfl rfl rfl rfl⟩
    rw [State.ReportInv, State.raiseError_done, hdone]
    exact .failed hadmits

/-- The reset state meets the invariant, whatever the large buffers hold (10_state.md R51). -/
theorem resetWith_inv {c : Config} (hc : c.wf = true) (contents : List Host.Cell) :
    (State.resetWith c (Memory.afterReset c contents)).Inv := by
  refine (State.inv_iff _).2 ⟨.clean fun _ => rfl, ?_⟩
  exact
    { config_wf := hc
      mem_wf := Memory.afterReset_wf c contents
      mem_mapped := fun _ hd => mappedByte_of_large (Memory.mem_afterReset hd)
      rr_lt := Nat.two_pow_pos _
      key := nofun }

/-- The invariant says nothing of the last read word, the entropy port and the list of inputs. -/
theorem State.Inv.of_outside {s : State} (hs : s.Inv) (rdata : Word) (entropy : List Byte) (inputs : List Input) :
    State.Inv { s with rdata := rdata, entropy := entropy, inputs := inputs } := by
  obtain ⟨hreport, hdata⟩ := s.inv_iff.1 hs
  exact (State.inv_iff _).2 ⟨hreport, hdata.of_same rfl rfl rfl rfl rfl rfl⟩

theorem applyInput_inv {i : Input} {s t : State} (hs : s.Inv) (h : applyInput i s = .next t) : t.Inv := by
  cases i with
  | read a => cases h; exact hostRead_inv hs a
  | write a v => cases h; exact hostWrite_inv hs a v
  | engine => exact engineTurn_inv hs h
  | reset contents => cases h; exact (resetWith_inv hs.config_wf contents).of_outside _ _ _

/-- Settles O57: whoever's turn it is keeps the invariant. -/
theorem stepKeepsInvariant : Obligations.StepKeepsInvariant := by
  unfold Obligations.StepKeepsInvariant
  intro s t hs h
  cases hi : s.inputs with
  | nil =>
    rw [step_nil hi] at h
    exact engineTurn_inv hs h
  | cons i rest =>
    rw [step_cons hi] at h
    exact applyInput_inv (hs.of_outside s.rdata s.entropy rest) h

/-- Settles O56: `State.reset` is the reset state of the suggested parameters with nothing in the large buffers. -/
theorem resetSatisfiesInvariant : Obligations.ResetSatisfiesInvariant :=
  ⟨resetWith_inv (by decide) [], fun _ contents hc => resetWith_inv hc contents⟩

end Sys2Proof.Machine
end

section
/-! The registers at the port: where they lie, what a read returns and a write does (10_state.md R23-R37, R49,
20_memory.md R61-R63), and when BUSY changes (10_state.md R27). -/

namespace Sys2Proof.Machine

/-! ### The address of each register -/

/-- Byte address of a register (20_memory.md R61), where `Reg.addr` is its word address. -/
def Reg.offset : Reg → Nat
  | .id => 0x00
  | .cap => 0x04
  | .ctrl => 0x08
  | .status => 0x0C
  | .errinfo => 0x10
  | .cmd => 0x14
  | .klen => 0x18
  | .mlen => 0x1C
  | .llen => 0x20
  | .n0inv => 0x24

theorem Reg.offset_lt (r : Reg) : r.offset < 0x28 := by cases r <;> decide

theorem placeControl_offset (r : Reg) : placeControl r.offset = .reg r := by cases r <;> rfl

theorem offset_of_placeControl {a : Nat} {r : Reg} (h : placeControl a = .reg r) : a = r.offset := by
  unfold placeControl at h
  split_ifs at h <;> cases h <;> assumption

theorem placeData_ne_reg (c : Config) (a : Nat) (r : Reg) : placeData c a ≠ .reg r := by
  have hbuf : ∀ b, placeBuffer c b a ≠ .reg r := fun b => by
    unfold placeBuffer
    split_ifs <;> simp
  unfold placeData
  split_ifs <;> simp [hbuf]

/-- A register is the place of its own address and of no other. -/
theorem place_eq_reg {c : Config} {a : WordAddr} {r : Reg} : place c a = .reg r ↔ byteAddr a = r.offset := by
  unfold place
  constructor
  · intro h
    split at h
    · exact offset_of_placeControl h
    · exact absurd h (placeData_ne_reg c _ r)
  · intro h
    have hlt := r.offset_lt
    rw [if_pos (by omega), h, placeControl_offset]

/-- The word addresses below 0x28 are those of the registers. -/
theorem exists_offset_eq {a : WordAddr} (h : byteAddr a < 0x28) : ∃ r : Reg, byteAddr a = r.offset := by
  have hword : byteAddr a = 4 * a.toNat := rfl
  have hlt : a.toNat < 10 := by omega
  rw [hword]
  generalize a.toNat = n at hlt
  interval_cases n
  exacts [⟨.id, rfl⟩, ⟨.cap, rfl⟩, ⟨.ctrl, rfl⟩, ⟨.status, rfl⟩, ⟨.errinfo, rfl⟩, ⟨.cmd, rfl⟩, ⟨.klen, rfl⟩,
    ⟨.mlen, rfl⟩, ⟨.llen, rfl⟩, ⟨.n0inv, rfl⟩]

/-! ### Writes -/

theorem hostWrite_reg {s : State} {a : WordAddr} (r : Reg) (v : Word) (h : byteAddr a = r.offset) :
    hostWrite a v s = s.regWrite v r := by
  rw [hostWrite, place_eq_reg.2 h]

theorem lockedWrite_of_idle {s : State} (hb : s.busy = false) (f : State → State) : s.lockedWrite f = f s := by
  simp [State.lockedWrite, hb]

theorem hostWrite_buffer {s : State} {a : WordAddr} {b : Buf} {off : Nat} (v : Word) (hb : s.busy = false)
    (h : place s.config a = .buffer b off) : hostWrite a v s = s.bufWrite b off v := by
  rw [hostWrite, h]
  exact lockedWrite_of_idle hb _

/-- DIGEST lies at 0x60-0x7F whatever the parameters (20_memory.md R61). -/
theorem place_digest (c : Config) {a : WordAddr} (h1 : 0x60 ≤ byteAddr a) (h2 : byteAddr a < 0x80) :
    place c a = .buffer .digest (byteAddr a - 0x60) := by
  have hin : byteAddr a - Buf.digest.base < Buf.digest.size c := by simp only [Buf.base, Buf.size]; omega
  rw [place, if_neg (by omega), placeData, if_neg (by omega), if_pos h2, placeBuffer, if_pos hin, Buf.base_digest]

/-- Settles O48: the port's write of a read-only register and of DIGEST is the identity. -/
theorem readOnlyLocationsIgnoreWrites : Obligations.ReadOnlyLocationsIgnoreWrites := by
  unfold Obligations.ReadOnlyLocationsIgnoreWrites
  intro s a v
  refine ⟨?_, fun hb h1 h2 => hostWrite_buffer v hb (place_digest s.config h1 h2)⟩
  rintro (h | h | h | h)
  · exact hostWrite_reg .id v h
  · exact hostWrite_reg .cap v h
  · exact hostWrite_reg .errinfo v h
  · exact hostWrite_reg .n0inv v h

/-- Settles O50: an idle block takes the write of a length register. -/
theorem lengthRegisterWrites : Obligations.LengthRegisterWrites := by
  unfold Obligations.LengthRegisterWrites
  intro s a v hb
  have hhalf : v.extractLsb' 0 16 = v.setWidth 16 := BitVec.setWidth_eq_extractLsb' (by decide) |>.symm
  rw [← hhalf]
  refine ⟨fun h => ?_, fun h => ?_, fun h => ?_⟩
  · rw [hostWrite_reg .klen v h, State.regWrite, lockedWrite_of_idle hb]
  · rw [hostWrite_reg .mlen v h, State.regWrite, lockedWrite_of_idle hb]
  · rw [hostWrite_reg .llen v h, State.regWrite, lockedWrite_of_idle hb]

/-- Settles O51: the two registers that no lock guards. -/
theorem controlAndStatusWrites : Obligations.ControlAndStatusWrites := by
  unfold Obligations.ControlAndStatusWrites
  intro s a v
  refine ⟨fun h => hostWrite_reg .ctrl v h, fun h => ?_⟩
  rw [hostWrite_reg .status v h, State.regWrite, State.clearStatus]
  simp [Bool.and_comm]

/-- A write keeps KEYOK, unless it is an accepted one to KLEN or NBUF (10_state.md R29). -/
theorem hostWrite_keyok (a : WordAddr) (v : Word) (s : State) :
    (hostWrite a v s).keyok = s.keyok ∨ (s.busy = false ∧
      (byteAddr a = 0x18 ∨ (0x400 ≤ byteAddr a ∧ byteAddr a < 0x400 + s.config.kmax))) := by
  rcases hostWrite_cases a v s with e | e | e | ⟨-, e⟩ | ⟨-, -, e⟩ | ⟨hb, hp, -⟩ | ⟨-, -, e⟩ | ⟨-, -, e⟩ |
    ⟨b, off, hb, hp, -, e⟩
  case inr.inr.inr.inr.inr.inl => exact .inr ⟨hb, .inl (place_eq_reg.1 hp)⟩
  case inr.inr.inr.inr.inr.inr.inr.inr =>
    by_cases hn : b = .nbuf
    · subst hn
      obtain ⟨haddr, hoff⟩ := place_buffer hp
      exact .inr ⟨hb, .inr (by simp only [Buf.base, Buf.size] at haddr hoff; omega)⟩
    · exact .inl (by simp [e, hn])
  all_goals exact .inl (by simp [e])

/-- An accepted write to KLEN or NBUF clears KEYOK. -/
theorem hostWrite_keyok_eq_false {s : State} {a : WordAddr} (v : Word) (hc : s.config.wf = true) (hb : s.busy = false)
    (h : byteAddr a = 0x18 ∨ (0x400 ≤ byteAddr a ∧ byteAddr a < 0x400 + s.config.kmax)) :
    (hostWrite a v s).keyok = false := by
  rcases h with h | ⟨hlow, hhigh⟩
  · rw [hostWrite_reg .klen v h, State.regWrite, lockedWrite_of_idle hb]
  · rw [hostWrite_buffer v hb (place_eq_buffer (b := .nbuf) hc hlow hhigh)]
    rfl

/-- Settles O49: the accepted writes to KLEN and NBUF clear KEYOK, and every other write keeps it. -/
theorem keyWritesClearKeyok : Obligations.KeyWritesClearKeyok := by
  unfold Obligations.KeyWritesClearKeyok
  intro s a v hc
  by_cases h : s.busy = false ∧ (byteAddr a = 0x18 ∨ (0x400 ≤ byteAddr a ∧ byteAddr a < 0x400 + s.config.kmax))
  · simp [hostWrite_keyok_eq_false v hc h.1 h.2, h]
  · simp [(hostWrite_keyok a v s).resolve_right h, h]

/-! ### Reads -/

theorem hostRead_reg {s : State} {a : WordAddr} {r : Reg} (h : byteAddr a = r.offset) :
    hostRead a s = { s with rdata := s.regRead r } := by
  rw [hostRead, place_eq_reg.2 h]

theorem capWord_toNat {s : State} (hc : s.config.wf = true) :
    s.capWord.toNat = s.config.lmax * 65536 + s.config.kmax := by
  have hk := Buf.size_le hc .nbuf
  have hl := Buf.size_le hc .lbuf
  simp only [Buf.size] at hk hl
  rw [State.capWord, BitVec.toNat_ofNat, Nat.mod_eq_of_lt (by omega)]

theorem ctrlWord_toNat (s : State) :
    s.ctrlWord.toNat = s.ieDone.toNat + 2 * s.ieErr.toNat + 4 * s.seedSel.toNat := by
  unfold State.ctrlWord
  cases s.ieDone <;> cases s.ieErr <;> cases s.seedSel <;> rfl

theorem statusWord_toNat (s : State) :
    s.statusWord.toNat =
      s.busy.toNat + 2 * s.done.toNat + 4 * s.err.toNat + 8 * s.keyok.toNat + 16 * s.lockv.toNat := by
  unfold State.statusWord
  cases s.busy <;> cases s.done <;> cases s.err <;> cases s.keyok <;> cases s.lockv <;> rfl

theorem errinfoWord_toNat (s : State) : s.errinfoWord.toNat = s.errSub.toNat * 256 + s.errCode.toNat := by
  have hcode := s.errCode.isLt
  have hsub := s.errSub.isLt
  rw [State.errinfoWord, BitVec.toNat_setWidth, BitVec.toNat_append, ← Nat.shiftLeft_add_eq_or_of_lt hcode,
    Nat.shiftLeft_eq, Nat.mod_eq_of_lt (by omega)]

theorem lengthWord_toNat (x : Half) : (x.setWidth 32 : Word).toNat = x.toNat :=
  BitVec.toNat_setWidth_of_le (by decide)

/-- Settles O52: a read below 0x28 is the read of one register, and each register's word has its value. -/
theorem registerReadValues : Obligations.RegisterReadValues := by
  unfold Obligations.RegisterReadValues
  intro s a hc hlt
  obtain ⟨r, hr⟩ := exists_offset_eq hlt
  refine ⟨s.regRead r, hostRead_reg hr, ?_⟩
  rw [hr]
  cases r <;> simp [-BitVec.toNat_setWidth, Reg.offset, State.regRead, Config.mmeeId, capWord_toNat hc, ctrlWord_toNat,
    statusWord_toNat, errinfoWord_toNat, lengthWord_toNat]

/-- Settles O53, by the definition of `irq`. -/
theorem interruptLevel : Obligations.InterruptLevel := by
  unfold Obligations.InterruptLevel
  intro s
  simp only [State.irq, Bool.or_eq_true, Bool.and_eq_true]

/-! ### BUSY -/

@[simp] theorem hostRead_busy (a : WordAddr) (s : State) : (hostRead a s).busy = s.busy := by
  rcases hostRead_cases a s with ⟨v, e⟩ | ⟨-, e⟩ <;> rw [e]

/-- A write to the port keeps BUSY, unless it is the acceptance of a command. -/
theorem hostWrite_busy (a : WordAddr) (v : Word) (s : State) :
    (hostWrite a v s).busy = s.busy ∨ (s.busy = false ∧ byteAddr a = 0x14 ∧ hostWrite a v s = s.accept v) := by
  rcases hostWrite_cases a v s with e | e | e | ⟨-, e⟩ | ⟨hb, hp, e⟩ | ⟨-, -, e⟩ | ⟨-, -, e⟩ | ⟨-, -, e⟩ |
    ⟨b, off, -, -, -, e⟩
  case inr.inr.inr.inr.inl => exact .inr ⟨hb, place_eq_reg.1 hp, e⟩
  all_goals exact .inl (by simp [e])

/-- Settles O59: of the four turns only an acceptance sets BUSY, and only the engine's and a reset clear it. -/
theorem busyChangesOnlyByAcceptanceAndCompletion : Obligations.BusyChangesOnlyByAcceptanceAndCompletion := by
  unfold Obligations.BusyChangesOnlyByAcceptanceAndCompletion
  intro i s t h
  cases i with
  | read a =>
    cases h
    rw [hostRead_busy]
    cases s.busy <;> simp
  | write a v =>
    cases h
    rcases hostWrite_busy a v s with e | ⟨hb, haddr, e⟩
    · rw [e]
      cases s.busy <;> simp
    · rw [e]
      exact ⟨fun _ _ => ⟨a, v, rfl, haddr, rfl⟩, fun h1 _ => absurd h1 (by simp [hb])⟩
  | engine =>
    refine ⟨fun h0 h1 => ?_, fun _ _ => .inl rfl⟩
    obtain ⟨rfl, -, -⟩ := engineTurn_busy h h1
    exact absurd h1 (by simp [h0])
  | reset contents =>
    cases h
    exact ⟨fun _ h1 => absurd h1 (by simp [resetPin, State.resetWith]), fun _ _ => .inr ⟨contents, rfl⟩⟩

end Sys2Proof.Machine
end

section
/-! What a reset leaves (10_state.md R51), and what no command changes (10_state.md R29, R36, R38, R46). -/

namespace Sys2Proof.Machine

/-! ### Reset -/

/-- The bytes that reset does not clear lie at 0x400 and above (20_memory.md R61). -/
theorem le_of_largeByte {c : Config} {a : Nat} (h : largeByte c a = true) : 0x400 ≤ a := by
  obtain ⟨b, -, hb⟩ := List.any_eq_true.1 h
  obtain ⟨hlarge, hholds⟩ := Bool.and_eq_true_iff.1 hb
  have hbase : b.base ≤ a := of_decide_eq_true (Bool.and_eq_true_iff.1 hholds).1
  have hlow : 0x400 ≤ b.base := by revert hlarge; cases b <;> decide
  exact hlow.trans hbase

namespace Memory

/-- A reset leaves zero below the large buffers, in SEED and DIGEST. -/
theorem read_afterReset_low (c : Config) (contents : List Host.Cell) {a : Nat} (h : a < 0x400) :
    (afterReset c contents).read a = 0#8 :=
  read_below _ a fun _ hd => h.trans_le (le_of_largeByte (mem_afterReset hd))

/-- A write above every listed address appends a cell. -/
theorem write_above (m : Memory) (a : Nat) {v : Byte} (hv : v ≠ Memory.unlisted) (h : ∀ d ∈ m, d.1 < a) :
    m.write a v = m ++ [(a, v)] := by
  induction m with
  | nil => simp [Memory.write, Memory.cons, hv]
  | cons d m ih =>
    have hd : d.1 < a := h d List.mem_cons_self
    rw [Memory.write, if_neg (by omega), if_neg (by omega), ih fun e he => h e (List.mem_cons_of_mem _ he)]
    rfl

/-- Writing the cells of a canonical memory one after the other appends it to what lies below it. -/
theorem fold_writes_eq_append {c : Config} {m low : Memory} (hwf : m.wf = true)
    (hlarge : ∀ d ∈ m, largeByte c d.1 = true) (hlow : ∀ e ∈ low, ∀ d ∈ m, e.1 < d.1) :
    m.foldl (fun m cell => if largeByte c cell.1 then m.write cell.1 cell.2 else m) low = low ++ m := by
  induction m generalizing low with
  | nil => simp
  | cons d m ih =>
    obtain ⟨hd, habove, hm⟩ := (wf_cons d m).1 hwf
    have hbelow : ∀ e ∈ low ++ [d], ∀ d' ∈ m, e.1 < d'.1 := by
      intro e he d' hd'
      rcases List.mem_append.1 he with he | he
      · exact hlow e he d' (List.mem_cons_of_mem _ hd')
      · rw [List.mem_singleton.1 he]
        exact habove d' hd'
    rw [List.foldl_cons, if_pos (hlarge d List.mem_cons_self),
      write_above low d.1 hd fun e he => hlow e he d List.mem_cons_self,
      ih hm (fun d' hd' => hlarge d' (List.mem_cons_of_mem _ hd')) hbelow, List.append_assoc, List.singleton_append]

/-- A reset that leaves the cells of a canonical memory in the large buffers leaves that memory. -/
theorem afterReset_self {c : Config} {m : Memory} (hwf : m.wf = true) (hlarge : ∀ d ∈ m, largeByte c d.1 = true) :
    afterReset c m = m :=
  fold_writes_eq_append hwf hlarge (by simp)

end Memory

/-- Settles O54: the fields are those of the reset state, and no byte of SEED and DIGEST is listed. -/
theorem resetValues : Obligations.ResetValues := by
  unfold Obligations.ResetValues
  intro s contents _
  refine ⟨resetPin contents s, rfl, rfl, rfl, rfl, rfl, rfl, rfl, rfl, rfl, rfl, rfl, rfl, rfl, rfl, rfl, rfl, rfl, ?_⟩
  exact fun addr _ hhigh => Memory.read_afterReset_low s.config contents (by omega)

/-- Settles O55: the memory itself is the contents to leave. -/
theorem resetLeavesLargeBuffersOpen : Obligations.ResetLeavesLargeBuffersOpen := by
  unfold Obligations.ResetLeavesLargeBuffersOpen
  intro s m hwf hlarge
  exact ⟨m, Memory.afterReset_self hwf hlarge⟩

/-! ### Commands -/

/-- However a command ends, it has written its own destinations and constants at most. -/
theorem exec_writes {i : Instr} {s t : State} (hs : s.Inv) (h : exec i s = .next t) : s.Writes i t := by
  rw [exec_eq_complete] at h
  obtain ⟨w, hr, rfl⟩ | ⟨code, sub, -, rfl⟩ | ⟨-, rfl⟩ := complete_next h
  · obtain ⟨hstores, hconstants⟩ := commandResult_writes (fun hk => (hs.key hk).klen_le) hr
    exact ⟨hstores, hconstants⟩
  · exact ⟨.none, fun _ => ⟨rfl, rfl, rfl⟩⟩
  · exact ⟨.none, fun _ => ⟨rfl, rfl, rfl⟩⟩

/-- Settles O60: a buffer that is no destination of the command keeps its bytes. -/
theorem hostOnlyBuffersAndUnitConstants : Obligations.HostOnlyBuffersAndUnitConstants := by
  unfold Obligations.HostOnlyBuffersAndUnitConstants
  intro i s t hs h
  obtain ⟨hstores, hconstants⟩ := exec_writes hs h
  refine ⟨hconstants, fun hhash j hj => ?_, fun b hb j hj => ?_⟩
  · exact hstores.read_other hs.config_wf (digest_not_mem_destinations hhash) hj
  · exact hstores.read_other hs.config_wf (hostOnly_not_mem_destinations i hb) hj

end Sys2Proof.Machine
end

section
/-! A running command and the host do not meet (20_memory.md R67, 70_reset_and_hazards.md R260): a transaction writes
only fields that no command reads or writes, and the engine's turn carries these fields along unread. -/

namespace Sys2Proof.Machine

/-- `s` with the fields of `p` that belong to the host's side of the port: CTRL, LOCKV and the last read word. -/
def State.withPort (s p : State) : State :=
  { s with ieDone := p.ieDone, ieErr := p.ieErr, seedSel := p.seedSel, lockv := p.lockv, rdata := p.rdata }

theorem sameForCommand_withPort (s p : State) : SameForCommand s (s.withPort p) := by constructor <;> rfl

/-! ### A transaction with a busy block -/

theorem hostRead_eq_withPort (a : WordAddr) (s : State) : hostRead a s = s.withPort (hostRead a s) := by
  rcases hostRead_cases a s with ⟨v, e⟩ | ⟨-, e⟩ <;> rw [e] <;> rfl

/-- Clearing flags that are 0 leaves LOCKV as the only flag that changes (10_state.md R26). -/
theorem clearStatus_eq_withPort {s : State} (hd : s.done = false) (he : s.err = false) (v : Word) :
    s.clearStatus v = s.withPort (s.clearStatus v) := by
  simp [State.clearStatus, State.withPort, hd, he]

/-- The lock leaves CTRL and STATUS to be written (20_memory.md R67). -/
theorem hostWrite_eq_withPort {s : State} (hb : s.busy = true) (hd : s.done = false) (he : s.err = false) (a : WordAddr)
    (v : Word) : hostWrite a v s = s.withPort (hostWrite a v s) := by
  rcases hostWrite_cases a v s with e | e | e | ⟨-, e⟩ | ⟨hi, -⟩ | ⟨hi, -⟩ | ⟨hi, -⟩ | ⟨hi, -⟩ | ⟨_, _, hi, -⟩
  · rw [e]; rfl
  · rw [e]; rfl
  · rw [e]; exact clearStatus_eq_withPort hd he v
  · rw [e]; rfl
  all_goals exact absurd hi (by simp [hb])

theorem transaction_eq_withPort {i : Input} {s s' : State} (hi : i.isTransaction = true) (hb : s.busy = true)
    (hd : s.done = false) (he : s.err = false) (h : applyInput i s = .next s') : s' = s.withPort s' := by
  cases i with
  | read a => cases h; exact hostRead_eq_withPort a s
  | write a v => cases h; exact hostWrite_eq_withPort hb hd he a v
  | engine => cases hi
  | reset contents => cases hi

/-! ### The engine's turn carries the port's fields along -/

/-- A command's result with the port's fields of `p` in what it has written. -/
def CmdResult.withPort (p : State) : CmdResult → CmdResult
  | .ok w => .ok (w.withPort p)
  | .err code sub => .err code sub
  | .pending => .pending

section
variable (s p : State)

theorem minit_withPort : minit (s.withPort p) = (minit s).withPort p := by
  rw [minit, minit, apply_ite (CmdResult.withPort p), apply_ite (CmdResult.withPort p)]
  rfl

theorem montmul_withPort (a b : Buf) : montmul a b (s.withPort p) = (montmul a b s).withPort p := by
  rw [montmul, montmul, apply_ite (CmdResult.withPort p), apply_ite (CmdResult.withPort p)]
  rfl

theorem modmul_withPort (a b : Buf) : modmul a b (s.withPort p) = (modmul a b s).withPort p := by
  rw [modmul, modmul, apply_ite (CmdResult.withPort p)]
  rfl

theorem modexp_withPort (a : Buf) : modexp a (s.withPort p) = (modexp a s).withPort p := by
  rw [modexp, modexp, apply_ite (CmdResult.withPort p)]
  rfl

theorem buf_withPort (b : Buf) (len : Nat) : (s.withPort p).buf b len = s.buf b len := rfl

theorem setBuf_withPort (b : Buf) (bytes : List Byte) :
    (s.withPort p).setBuf b bytes = (s.setBuf b bytes).withPort p := rfl

theorem lengthOf_withPort (b : Buf) : (s.withPort p).lengthOf b = s.lengthOf b := by cases b <;> rfl

theorem hash_withPort (b : Buf) : hash b (s.withPort p) = (hash b s).withPort p := by
  rw [hash, hash, apply_ite (CmdResult.withPort p), lengthOf_withPort, buf_withPort, setBuf_withPort]
  rfl

theorem mgf1_withPort (len : Half) : mgf1 len (s.withPort p) = (mgf1 len s).withPort p := by
  rw [mgf1, mgf1, apply_ite (CmdResult.withPort p)]
  rfl

/-- The seed is SEEDSEL_L's and not SEEDSEL's choice (10_state.md R47). -/
theorem oaepSeed_withPort : (s.withPort p).oaepSeed = s.oaepSeed.map fun d => (d.1, d.2.withPort p) := by
  have hsel : (s.withPort p).seedSelL = s.seedSelL := rfl
  have hentropy : (s.withPort p).entropy = s.entropy := rfl
  rw [State.oaepSeed, State.oaepSeed, State.rngDraw, State.rngDraw, hsel, hentropy]
  split_ifs <;> rfl

theorem oaepenc_withPort : oaepenc (s.withPort p) = (oaepenc s).withPort p := by
  rw [oaepenc, oaepenc, apply_ite (CmdResult.withPort p), apply_ite (CmdResult.withPort p), oaepSeed_withPort]
  cases s.oaepSeed <;> rfl

theorem oaepdec_withPort (b : Buf) : oaepdec b (s.withPort p) = (oaepdec b s).withPort p := by
  have hdecode : oaepDecode ((s.withPort p).buf b (s.withPort p).k) (s.withPort p).k (s.withPort p).label =
      oaepDecode (s.buf b s.k) s.k s.label := rfl
  rw [oaepdec, oaepdec, apply_ite (CmdResult.withPort p), hdecode]
  cases oaepDecode (s.buf b s.k) s.k s.label <;> rfl

theorem commandResult_withPort (i : Instr) : commandResult i (s.withPort p) = (commandResult i s).withPort p := by
  cases i with
  | nop => rfl
  | minit => exact minit_withPort s p
  | montmul sa sb =>
    simp only [commandResult, montmul_withPort]
    cases operandBuf sa <;> cases operandBuf sb <;> rfl
  | modmul sa sb =>
    simp only [commandResult, modmul_withPort]
    cases operandBuf sa <;> cases operandBuf sb <;> rfl
  | modexp sa =>
    simp only [commandResult, modexp_withPort]
    cases operandBuf sa <;> rfl
  | hash sa =>
    simp only [commandResult, hash_withPort]
    cases hashBuf sa <;> rfl
  | mgf1 len => exact mgf1_withPort s p len
  | oaepenc => exact oaepenc_withPort s p
  | oaepdec sa =>
    simp only [commandResult, oaepdec_withPort]
    cases operandBuf sa <;> rfl

end

theorem complete_withPort {s t : State} {r : CmdResult} (p : State) (h : complete s r = .next t) :
    complete (s.withPort p) (r.withPort p) = .next (t.withPort p) := by
  cases r <;> cases h <;> rfl

/-- The engine does with other port fields what it does without them. -/
theorem engineTurn_withPort {s t : State} (p : State) (h : engineTurn s = .next t) :
    engineTurn (s.withPort p) = .next (t.withPort p) := by
  cases hb : s.busy with
  | false =>
    rw [engineTurn_of_idle hb] at h
    cases h
    exact engineTurn_of_idle hb
  | true =>
    have hcmd : (s.withPort p).cmdreg = s.cmdreg := rfl
    rw [engineTurn_of_busy hb, completionStep] at h
    rw [engineTurn_of_busy (s := s.withPort p) hb, completionStep, hcmd]
    cases hd : decode s.cmdreg with
    | illegal why =>
      rw [hd] at h
      exact complete_withPort p (r := illegalCommand) h
    | instr i =>
      simp only [hd, exec_eq_complete, commandResult_withPort] at h ⊢
      exact complete_withPort p h

/-- Settles O58: the transaction changes fields of the port's side only, which the completion step carries along. -/
theorem hostCannotDisturbCommand : Obligations.HostCannotDisturbCommand := by
  unfold Obligations.HostCannotDisturbCommand
  intro s s' t i hi hb hd he h ht
  rw [transaction_eq_withPort hi hb hd he h]
  exact ⟨sameForCommand_withPort s s', hb, hd, he, t.withPort s', engineTurn_withPort s' ht,
    sameForCommand_withPort t s', rfl, rfl⟩

end Sys2Proof.Machine
end

section
/-! The data region at the port: which places it has, what the lock makes of them, and the words of the buffers
(20_memory.md R61-R69). -/

namespace Sys2Proof.Machine

/-! ### The address map -/

theorem placeData_ne_unmappedControl (c : Config) (a : Nat) : placeData c a ≠ .unmappedControl := by
  have hbuf : ∀ b, placeBuffer c b a ≠ .unmappedControl := fun b => by
    unfold placeBuffer
    split <;> simp
  unfold placeData
  repeat' split
  all_goals simp [hbuf]

/-- The data region holds words of buffers and unmapped ones (20_memory.md R61, R66). -/
theorem placeData_cases (c : Config) (a : Nat) :
    (∃ b off, placeData c a = .buffer b off) ∨ placeData c a = .unmappedData := by
  cases h : placeData c a with
  | reg r => exact absurd h (placeData_ne_reg c a r)
  | unmappedControl => exact absurd h (placeData_ne_unmappedControl c a)
  | buffer b off => exact .inl ⟨b, off, rfl⟩
  | unmappedData => exact .inr rfl

theorem place_of_data {c : Config} {a : WordAddr} (h : 0x40 ≤ byteAddr a) : place c a = placeData c (byteAddr a) := by
  rw [place, if_neg (by omega)]

theorem place_unmappedControl (c : Config) {a : WordAddr} (h1 : 0x28 ≤ byteAddr a) (h2 : byteAddr a < 0x40) :
    place c a = .unmappedControl := by
  rw [place, if_pos h2, placeControl]
  iterate 10 rw [if_neg (by omega)]

theorem Buf.base_of_isLarge {b : Buf} (h : b.isLarge = true) : 0x400 ≤ b.base := by revert h; cases b <;> decide

/-- Each large buffer has a window of 0x400 bytes (20_memory.md R61). -/
theorem placeData_window (c : Config) {b : Buf} (hb : b.isLarge = true) {a : Nat} (h1 : b.base ≤ a)
    (h2 : a < b.base + 0x400) : placeData c a = placeBuffer c b a := by
  unfold placeData
  cases b with
  | seed | digest => cases hb
  | _ =>
    simp only [Buf.base] at h1 h2
    repeat' first
      | rw [if_pos (by omega)]
      | rw [if_neg (by omega)]

/-- The addresses of R66 in the data region are unmapped, for any capacities. -/
theorem place_unmappedData {c : Config} {a : WordAddr} (h : unmappedDataByte c (byteAddr a)) :
    place c a = .unmappedData := by
  rcases h with ⟨h1, h2⟩ | ⟨b, hlarge, h1, h2⟩
  · rw [place_of_data (by omega), placeData, if_neg (by omega), if_neg (by omega), if_pos h2]
  · have hbase : 0x400 ≤ b.base := Buf.base_of_isLarge hlarge
    rw [place_of_data (by omega), placeData_window c hlarge (by omega) h2, placeBuffer, if_neg (by omega)]

/-! ### The lock -/

theorem dataRead_of_busy {s : State} (hb : s.busy = true) (w : Word) :
    s.dataRead w = { s with rdata := 0#32, lockv := true } := by
  simp [State.dataRead, hb, State.lockViolation]

theorem dataRead_of_idle {s : State} (hb : s.busy = false) (w : Word) : s.dataRead w = { s with rdata := w } := by
  simp [State.dataRead, hb]

theorem lockedWrite_of_busy {s : State} (hb : s.busy = true) (f : State → State) :
    s.lockedWrite f = { s with lockv := true } := by
  simp [State.lockedWrite, hb, State.lockViolation]

/-- The lock drops a write to CMD and to the length registers (20_memory.md R67). -/
theorem regWrite_locked {s : State} {r : Reg} (v : Word) (hb : s.busy = true)
    (hr : r = .cmd ∨ r = .klen ∨ r = .mlen ∨ r = .llen) : s.regWrite v r = { s with lockv := true } := by
  rcases hr with rfl | rfl | rfl | rfl <;> rw [State.regWrite, lockedWrite_of_busy hb]

/-- The lock hides the whole data region, mapped or not (20_memory.md R67). -/
theorem hostRead_locked {s : State} {a : WordAddr} (hb : s.busy = true) (h : 0x40 ≤ byteAddr a) :
    hostRead a s = { s with rdata := 0#32, lockv := true } := by
  rw [hostRead, place_of_data h]
  rcases placeData_cases s.config (byteAddr a) with ⟨b, off, hp⟩ | hp <;> rw [hp] <;> exact dataRead_of_busy hb _

theorem hostWrite_locked {s : State} {a : WordAddr} (v : Word) (hb : s.busy = true) (h : 0x40 ≤ byteAddr a) :
    hostWrite a v s = { s with lockv := true } := by
  rw [hostWrite, place_of_data h]
  rcases placeData_cases s.config (byteAddr a) with ⟨b, off, hp⟩ | hp <;> rw [hp] <;> exact lockedWrite_of_busy hb _

theorem hostRead_unmappedControl {s : State} {a : WordAddr} (h1 : 0x28 ≤ byteAddr a) (h2 : byteAddr a < 0x40) :
    hostRead a s = { s with rdata := 0#32 } := by
  rw [hostRead, place_unmappedControl s.config h1 h2]

/-- A read of the control region, a register or not, changes the last read word only. -/
theorem hostRead_control {s : State} {a : WordAddr} (h : byteAddr a < 0x40) :
    ∃ w, hostRead a s = { s with rdata := w } := by
  by_cases hreg : byteAddr a < 0x28
  · obtain ⟨r, hr⟩ := exists_offset_eq hreg
    exact ⟨_, hostRead_reg hr⟩
  · exact ⟨_, hostRead_unmappedControl (by omega) h⟩

/-- Settles O46: the lock guards the data region and four registers, and no other register. -/
theorem lockHidesAndDrops : Obligations.LockHidesAndDrops := by
  unfold Obligations.LockHidesAndDrops
  intro s a v hb
  refine ⟨hostRead_locked hb, ?_, hostRead_control, fun h => ?_, hostWrite_reg .ctrl v, hostWrite_reg .status v⟩
  · rintro (h | h | h | h | h)
    · exact hostWrite_locked v hb h
    · exact (hostWrite_reg .cmd v h).trans (regWrite_locked v hb (by simp))
    · exact (hostWrite_reg .klen v h).trans (regWrite_locked v hb (by simp))
    · exact (hostWrite_reg .mlen v h).trans (regWrite_locked v hb (by simp))
    · exact (hostWrite_reg .llen v h).trans (regWrite_locked v hb (by simp))
  · rw [hostRead_reg (r := .klen) h]
    exact lengthWord_toNat s.klen

/-- Settles O47: no address of the three ranges leads to a register or a buffer. -/
theorem unmappedAddresses : Obligations.UnmappedAddresses := by
  unfold Obligations.UnmappedAddresses
  intro s a v
  refine ⟨fun h1 h2 => ⟨hostRead_unmappedControl h1 h2, ?_⟩, fun h => ?_⟩
  · rw [hostWrite, place_unmappedControl s.config h1 h2]
  · have hplace := place_unmappedData h
    rw [hostRead, hostWrite, hplace]
    refine ⟨fun hb => ⟨dataRead_of_idle hb _, lockedWrite_of_idle hb _⟩, fun hb => ?_⟩
    exact ⟨dataRead_of_busy hb _, lockedWrite_of_busy hb _⟩

/-! ### Words of buffers -/

/-- The port's byte order is big-endian (20_memory.md R64). -/
theorem wordOfBytes_toNat (b0 b1 b2 b3 : Byte) : (wordOfBytes b0 b1 b2 b3).toNat =
    b0.toNat * 2 ^ 24 + b1.toNat * 2 ^ 16 + b2.toNat * 2 ^ 8 + b3.toNat := by
  have h1 := b1.isLt
  have h2 := b2.isLt
  have h3 := b3.isLt
  rw [wordOfBytes, BitVec.toNat_append, BitVec.toNat_append, BitVec.toNat_append, ← Nat.shiftLeft_add_eq_or_of_lt h1,
    ← Nat.shiftLeft_add_eq_or_of_lt h2, ← Nat.shiftLeft_add_eq_or_of_lt h3]
  simp only [Nat.shiftLeft_eq]
  omega

/-- In a canonical memory, a word reads back (20_memory.md R64). -/
theorem readWord_writeBytes_bytesOfWord {m : Memory} (hwf : m.wf = true) (a : Nat) (v : Word) :
    (m.writeBytes a (bytesOfWord v)).readWord a = v := by
  have hbytes := Memory.readBytes_writeBytes_self m a (bytesOfWord v) hwf
  generalize m.writeBytes a (bytesOfWord v) = m' at hbytes ⊢
  have hfour : [m'.read a, m'.read (a + 1), m'.read (a + 2), m'.read (a + 3)] = bytesOfWord v := hbytes
  simp only [bytesOfWord, List.cons.injEq, and_true] at hfour
  obtain ⟨h0, h1, h2, h3⟩ := hfour
  rw [Memory.readWord, h0, h1, h2, h3, wordOfBytes_bytesOfWord]

theorem hostRead_buffer {s : State} {a : WordAddr} {b : Buf} (hc : s.config.wf = true) (hb : s.busy = false)
    (h1 : b.base ≤ byteAddr a) (h2 : byteAddr a < b.base + b.size s.config) :
    hostRead a s = { s with rdata := s.mem.readWord (byteAddr a) } := by
  simp only [hostRead, place_eq_buffer hc h1 h2, Nat.add_sub_of_le h1]
  exact dataRead_of_idle hb _

/-- Settles O44: the word that an idle read returns is made of the four bytes at its address. -/
theorem bufferWordReadsBigEndian : Obligations.BufferWordReadsBigEndian := by
  unfold Obligations.BufferWordReadsBigEndian
  intro s a b hc hb h1 h2
  exact ⟨_, hostRead_buffer hc hb h1 h2, wordOfBytes_toNat _ _ _ _⟩

/-- An accepted write to a buffer that the host may write (20_memory.md R63, 10_state.md R29). -/
theorem bufWrite_eq (s : State) {b : Buf} (hd : b ≠ .digest) (off : Nat) (v : Word) : s.bufWrite b off v = { s with
    mem := s.mem.writeBytes (b.base + off) (bytesOfWord v), keyok := if b = .nbuf then false else s.keyok } := by
  cases b with
  | digest => exact absurd rfl hd
  | _ => rfl

/-- A word written to an idle buffer other than DIGEST is stored, and one of NBUF clears KEYOK (20_memory.md R63, R68,
R69, 10_state.md R29). -/
theorem hostWrite_stores {s : State} {a : WordAddr} {b : Buf} (v : Word) (hc : s.config.wf = true) (hb : s.busy = false)
    (hd : b ≠ .digest) (h1 : b.base ≤ byteAddr a) (h2 : byteAddr a < b.base + b.size s.config) :
    hostWrite a v s = { s with
      mem := s.mem.writeBytes (byteAddr a) (bytesOfWord v), keyok := if b = .nbuf then false else s.keyok } := by
  rw [hostWrite_buffer v hb (place_eq_buffer hc h1 h2), bufWrite_eq s hd, Nat.add_sub_of_le h1]

/-- Settles O45: the four bytes of the word are what the store puts into memory. -/
theorem bufferWordWriteReadsBack : Obligations.BufferWordWriteReadsBack := by
  unfold Obligations.BufferWordWriteReadsBack
  intro s a v b hc hb hwf hd h1 h2
  rw [hostWrite_stores v hc hb hd h1 h2]
  refine ⟨?_, fun addr haddr => Memory.read_writeBytes_outside _ _ _ _ haddr, rfl⟩
  rw [hostRead_buffer (b := b)]
  exacts [readWord_writeBytes_bytesOfWord hwf (byteAddr a) v, hc, hb, h1, h2]

end Sys2Proof.Machine
end

section
/-! The encoding: command words as packed fields, decoding as the inverse of encoding, the opcode map, and the words and
terms that stand for no command (30_encoding.md R90-R98). -/

namespace Sys2Proof

/-! ### Words as packed fields (30_encoding.md R91) -/

theorem pack_eq_iff {op : BitVec 8} {sa sb : Selector} {imm : Half} {w : Word} :
    pack op sa sb imm = w ↔ opcodeField w = op ∧ saField w = sa ∧ sbField w = sb ∧ immField w = imm := by
  conv_lhs => rw [← pack_fields w, pack_inj]
  simp only [eq_comm]

/-! ### One rule per format of the table (30_encoding.md R92) -/

theorem checkSelectors_eq_instr {i j : Instr} : checkSelectors j = .instr i ↔ j = i ∧ i.WellFormed := by
  unfold checkSelectors
  split
  · next hwf => exact ⟨fun h => by cases h; exact ⟨rfl, hwf⟩, fun h => congrArg _ h.1⟩
  · next hwf => exact ⟨nofun, fun ⟨hij, hi⟩ => absurd (hij ▸ hi) hwf⟩

section
variable {w : Word} {i : Instr} {op : BitVec 8}

theorem encode_of_decodeZ {j : Instr} (hop : opcodeField w = op) (hcode : encode j = pack op 0#4 0#4 0#16)
    (h : decodeZ w j = .instr i) : i.WellFormed ∧ encode i = w := by
  unfold decodeZ at h
  split at h
  · next hzero =>
    obtain ⟨rfl, hwf⟩ := checkSelectors_eq_instr.1 h
    exact ⟨hwf, hcode.trans (pack_eq_iff.2 ⟨hop, hzero⟩)⟩
  · cases h

theorem encode_of_decodeS1 {mk : Selector → Instr} (hop : opcodeField w = op)
    (hcode : ∀ sa, encode (mk sa) = pack op sa 0#4 0#16) (h : decodeS1 w mk = .instr i) :
    i.WellFormed ∧ encode i = w := by
  unfold decodeS1 at h
  split at h
  · next hzero =>
    obtain ⟨rfl, hwf⟩ := checkSelectors_eq_instr.1 h
    exact ⟨hwf, (hcode _).trans (pack_eq_iff.2 ⟨hop, rfl, hzero⟩)⟩
  · cases h

theorem encode_of_decodeS2 {mk : Selector → Selector → Instr} (hop : opcodeField w = op)
    (hcode : ∀ sa sb, encode (mk sa sb) = pack op sa sb 0#16) (h : decodeS2 w mk = .instr i) :
    i.WellFormed ∧ encode i = w := by
  unfold decodeS2 at h
  split at h
  · next hzero =>
    obtain ⟨rfl, hwf⟩ := checkSelectors_eq_instr.1 h
    exact ⟨hwf, (hcode _ _).trans (pack_eq_iff.2 ⟨hop, rfl, rfl, hzero⟩)⟩
  · cases h

theorem encode_of_decodeI {mk : Half → Instr} (hop : opcodeField w = op)
    (hcode : ∀ len, encode (mk len) = pack op 0#4 0#4 len) (h : decodeI w mk = .instr i) :
    i.WellFormed ∧ encode i = w := by
  unfold decodeI at h
  split at h
  · next hzero =>
    obtain ⟨rfl, hwf⟩ := checkSelectors_eq_instr.1 h
    exact ⟨hwf, (hcode _).trans (pack_eq_iff.2 ⟨hop, hzero.1, hzero.2, rfl⟩)⟩
  · cases h

end

/-! ### Decoding and encoding are inverse (30_encoding.md R96) -/

/-- A command's word has the command's fields, so that only its selectors are left to check. -/
theorem decode_encode (i : Instr) : decode (encode i) = checkSelectors i := by
  cases i with
  | nop | minit | oaepenc => rfl
  | montmul sa sb | modmul sa sb => simp [decode, encode, Instr.opcode, decodeS2]
  | modexp sa | hash sa | oaepdec sa => simp [decode, encode, Instr.opcode, decodeS1]
  | mgf1 len => simp [decode, encode, Instr.opcode, decodeI]

theorem encode_of_decode {w : Word} {i : Instr} (h : decode w = .instr i) : i.WellFormed ∧ encode i = w := by
  unfold decode at h
  split_ifs at h with hop hop hop hop hop hop hop hop hop
  · exact encode_of_decodeZ hop rfl h
  · exact encode_of_decodeZ hop rfl h
  · exact encode_of_decodeS2 hop (fun _ _ => rfl) h
  · exact encode_of_decodeS2 hop (fun _ _ => rfl) h
  · exact encode_of_decodeS1 hop (fun _ => rfl) h
  · exact encode_of_decodeS1 hop (fun _ => rfl) h
  · exact encode_of_decodeI hop (fun _ => rfl) h
  · exact encode_of_decodeZ hop rfl h
  · exact encode_of_decodeS1 hop (fun _ => rfl) h

/-- Decoding, said once: the words that decode are those of the well-formed commands. -/
theorem decode_eq_instr_iff {w : Word} {i : Instr} : decode w = .instr i ↔ i.WellFormed ∧ encode i = w := by
  refine ⟨encode_of_decode, ?_⟩
  rintro ⟨hwf, rfl⟩
  rw [decode_encode, checkSelectors_eq_instr]
  exact ⟨rfl, hwf⟩

/-- Settles O1: a command's word has the command's fields, and its selectors pass the check. -/
theorem decodeEncodeRoundTrip : Obligations.DecodeEncodeRoundTrip :=
  fun _ hwf => decode_eq_instr_iff.2 ⟨hwf, rfl⟩

/-- Settles O2, format by format: a word that passes its row's checks is the packing of the fields they look at. -/
theorem decodedWordReencodes : Obligations.DecodedWordReencodes :=
  fun _ _ => decode_eq_instr_iff.1

/-- Settles O6: each word is the encoding of its command. -/
theorem exampleWordsDecode : Obligations.ExampleWordsDecode := by
  simp only [Obligations.ExampleWordsDecode, decode_eq_instr_iff]
  decide

/-! ### The opcode map (30_encoding.md R95) -/

theorem Instr.row_mem_opcodeRows (i : Instr) : i.row ∈ opcodeRows := by
  cases i <;> simp [Instr.row, opcodeRows]

/-- A mask compares field by field. -/
theorem OpcodeRow.candidate_iff {r : OpcodeRow} {w : Word} : r.candidate w = true ↔
    opcodeField w &&& opcodeField r.maskWord = opcodeField r.matchWord ∧
    saField w &&& saField r.maskWord = saField r.matchWord ∧
    sbField w &&& sbField r.maskWord = sbField r.matchWord ∧
    immField w &&& immField r.maskWord = immField r.matchWord := by
  rw [OpcodeRow.candidate, beq_iff_eq, ← pack_inj, ← mask_pack, pack_fields, pack_fields]

theorem Instr.row_matchWord (i : Instr) : i.row.matchWord = pack i.opcode 0#4 0#4 0#16 := by
  cases i <;> simp only [Instr.row, Instr.opcode] <;> decide

/-- Each row compares the opcode and, where its mask looks further, asks for zero. -/
theorem Instr.candidate_row_iff {i : Instr} {w : Word} {msa msb : Selector} {mimm : Half}
    (hmask : i.row.maskWord = pack (.allOnes 8) msa msb mimm) : i.row.candidate w = true ↔
    opcodeField w = i.opcode ∧ saField w &&& msa = 0#4 ∧ sbField w &&& msb = 0#4 ∧ immField w &&& mimm = 0#16 := by
  rw [OpcodeRow.candidate_iff, hmask, i.row_matchWord]
  simp only [opcodeField_pack, saField_pack, sbField_pack, immField_pack, BitVec.and_allOnes]

/-- The word of a command, well formed or not, is a candidate for its row with the command's operands as fields: the mask
of each row covers exactly the fields that are no operand. -/
theorem encode_eq_iff {w : Word} {i : Instr} : encode i = w ↔ i.row.candidate w = true ∧ i = i.withFields w := by
  cases i with
  | nop | minit | oaepenc =>
    rw [Instr.candidate_row_iff (msa := .allOnes 4) (msb := .allOnes 4) (mimm := .allOnes 16) rfl]
    simp only [encode, pack_eq_iff, Instr.withFields, BitVec.and_allOnes, and_true]
  | montmul sa sb | modmul sa sb =>
    rw [Instr.candidate_row_iff (msa := 0#4) (msb := 0#4) (mimm := .allOnes 16) rfl]
    simp only [encode, pack_eq_iff, Instr.withFields, BitVec.and_zero, BitVec.and_allOnes, Instr.montmul.injEq,
      Instr.modmul.injEq]
    tauto
  | modexp sa | hash sa | oaepdec sa =>
    rw [Instr.candidate_row_iff (msa := 0#4) (msb := .allOnes 4) (mimm := .allOnes 16) rfl]
    simp only [encode, pack_eq_iff, Instr.withFields, BitVec.and_zero, BitVec.and_allOnes, Instr.modexp.injEq,
      Instr.hash.injEq, Instr.oaepdec.injEq]
    tauto
  | mgf1 len =>
    rw [Instr.candidate_row_iff (msa := .allOnes 4) (msb := .allOnes 4) (mimm := 0#16) rfl]
    simp only [encode, pack_eq_iff, Instr.withFields, BitVec.and_zero, BitVec.and_allOnes, Instr.mgf1.injEq]
    tauto

/-- Settles O3: the row's mask and match and the fields, put together, are the command's word. -/
theorem decodeIsTheOpcodeMap : Obligations.DecodeIsTheOpcodeMap := by
  intro w i
  rw [decode_eq_instr_iff, encode_eq_iff]
  constructor
  · rintro ⟨hwf, hcand, hfields⟩
    exact ⟨i.row_mem_opcodeRows, hcand, hwf, hfields⟩
  · rintro ⟨-, hcand, hwf, hfields⟩
    exact ⟨hwf, hcand, hfields⟩

/-- Every row compares the whole opcode field. -/
theorem opcodeField_of_candidate {r : OpcodeRow} {w : Word} (hr : r ∈ opcodeRows) (h : r.candidate w = true) :
    opcodeField w = opcodeField r.matchWord := by
  have hmask : ∀ r ∈ opcodeRows, opcodeField r.maskWord = BitVec.allOnes 8 := by decide
  obtain ⟨hop, -⟩ := OpcodeRow.candidate_iff.1 h
  rwa [hmask r hr, BitVec.and_allOnes] at hop

theorem opcodeRow_eq_of_opcodeField_eq : ∀ r ∈ opcodeRows, ∀ r' ∈ opcodeRows,
    opcodeField r.matchWord = opcodeField r'.matchWord → r = r' := by decide

/-- Settles O4: every mask covers the opcode field, in which no two rows agree. -/
theorem opcodeRowsDisjoint : Obligations.OpcodeRowsDisjoint := by
  intro w r hr r' hr' h h'
  apply opcodeRow_eq_of_opcodeField_eq r hr r' hr'
  rw [← opcodeField_of_candidate hr h, opcodeField_of_candidate hr' h']

end Sys2Proof

namespace Sys2Proof.Machine

/-! ### Words and terms that stand for no command (30_encoding.md R97) -/

theorem execIllegal_eq_failed (s : State) : execIllegal s = .next (s.failed 1#8 0#8) := rfl

/-- Settles O5: a word that decodes is some well-formed command's, so the engine runs the illegal word's completion. -/
theorem illegalWordEndsInOpcodeError : Obligations.IllegalWordEndsInOpcodeError := by
  constructor
  · intro s hb hillegal
    rw [engineTurn_of_busy hb, completionStep]
    cases hd : decode s.cmdreg with
    | instr i =>
      obtain ⟨hwf, hcode⟩ := decode_eq_instr_iff.1 hd
      exact absurd hcode (hillegal i hwf)
    | illegal why => exact execIllegal_eq_failed s
  · intro w
    rw [decode_eq_instr_iff, show encode .nop = 0x00000000#32 by decide]
    exact ⟨fun ⟨_, hw⟩ => hw.symm, fun hw => ⟨rfl, hw.symm⟩⟩

theorem operandBuf_eq_none {x : Selector} (h : operandSelector x = false) : operandBuf x = none := by
  simp [operandBuf, h]

theorem hashBuf_eq_none {x : Selector} (h : hashSelector x = false) : hashBuf x = none := by
  simp [hashBuf, h]

/-- A term with a selector outside its subset names no buffer, so that its meaning is the illegal command's. -/
theorem commandResult_of_not_wellFormed {i : Instr} (s : State) (h : ¬ i.WellFormed) :
    commandResult i s = illegalCommand := by
  have hbad : i.wellFormed = false := eq_false_of_ne_true h
  cases i with
  | nop | minit | mgf1 len | oaepenc => cases hbad
  | montmul sa sb | modmul sa sb =>
    obtain hsa | hsb := Bool.and_eq_false_iff.1 hbad
    · simp only [commandResult, operandBuf_eq_none hsa]
    · simp only [commandResult, operandBuf_eq_none hsb]
      cases operandBuf sa <;> rfl
  | modexp sa | oaepdec sa => simp only [commandResult, operandBuf_eq_none hbad]
  | hash sa => simp only [commandResult, hashBuf_eq_none hbad]

/-- Settles O38: the meaning of an ill-formed term looks at nothing but its selectors. -/
theorem illFormedCommandIsIllegal : Obligations.IllFormedCommandIsIllegal := by
  intro i s h
  rw [exec_eq_complete, commandResult_of_not_wellFormed s h]
  rfl

end Sys2Proof.Machine
end

section
/-! The engine's turn and the frames of the commands (40_command_execution.md R110-R115): a command ends with its writes,
with a report alone, or not yet; and the writes of each command are one or two slices of buffers. -/

namespace Sys2Proof.Machine

/-! ### The engine's turn -/

theorem engineTurn_of_decode {s : State} {i : Instr} (hb : s.busy = true) (hd : decode s.cmdreg = .instr i) :
    engineTurn s = exec i s := by
  rw [engineTurn_of_busy hb, completionStep, hd]

/-- Settles O7: either way the engine moves, and CMDREG names its command. -/
theorem stepRunsDecodedCommand : Obligations.StepRunsDecodedCommand := by
  unfold Obligations.StepRunsDecodedCommand
  intro s i hb hd
  refine ⟨fun rest h => ?_, fun h => ?_⟩
  · rw [step_cons h]
    exact engineTurn_of_decode hb hd
  · rw [step_nil h]
    exact engineTurn_of_decode hb hd

theorem decode_of_decodeTableWord {nbits w : Nat} {i : Instr} (h : decodeTableWord nbits w = some i) :
    decode (BitVec.ofNat 32 (w % 2 ^ nbits)) = .instr i := by
  unfold decodeTableWord at h
  split at h
  · cases hd : decode (BitVec.ofNat 32 (w % 2 ^ nbits)) with
    | instr j => rw [hd] at h; cases h; rfl
    | illegal why => rw [hd] at h; cases h
  · cases h

/-- Settles O8: placing a word is its acceptance with the engine's turn next. -/
theorem stepRunsPlacedWord : Obligations.StepRunsPlacedWord := by
  unfold Obligations.StepRunsPlacedWord
  intro s nbits w i h
  have hturn : (s.withFetchWord nbits w).inputs = .engine :: s.inputs := rfl
  rw [step_cons hturn]
  exact engineTurn_of_decode rfl (decode_of_decodeTableWord h)

/-- Settles O11: CMD is a register that the lock guards. -/
theorem commandAcceptance : Obligations.CommandAcceptance := by
  unfold Obligations.CommandAcceptance
  intro s a w ha
  rw [hostWrite_reg .cmd w ha]
  refine ⟨fun hb => ?_, fun hb => regWrite_locked w hb (.inl rfl)⟩
  rw [State.regWrite, lockedWrite_of_idle hb, State.accept]

/-- Settles O12: each of the three ends of `complete_next` but waiting clears BUSY, and only OAEPENC waits. -/
theorem completionClearsBusyAndSetsOneFlag : Obligations.CompletionClearsBusyAndSetsOneFlag := by
  unfold Obligations.CompletionClearsBusyAndSetsOneFlag
  intro s t hb hdone herr h
  cases hd : decode s.cmdreg with
  | illegal why =>
    rw [engineTurn_of_busy hb, completionStep, hd] at h
    cases h
    exact .inl ⟨rfl, hdone⟩
  | instr i =>
    rw [engineTurn_of_decode hb hd, exec_eq_complete] at h
    obtain ⟨w, hr, rfl⟩ | ⟨code, sub, -, rfl⟩ | ⟨hr, rfl⟩ := complete_next h
    · obtain ⟨hwerr, -, -⟩ := State.sameOutside_report (commandResult_ok hr)
      exact .inl ⟨rfl, by simp [hwerr, herr]⟩
    · exact .inl ⟨rfl, hdone⟩
    · obtain ⟨rfl, hsel, hlen⟩ := commandResult_pending hr
      exact .inr ⟨rfl, rfl, hsel, hlen⟩

/-! ### NOP (40_command_execution.md R115) -/

theorem exec_nop (s : State) : exec .nop s = .next s.finished := rfl

theorem eq_nop_of_opcode {i : Instr} (h : i.opcode = 0x00#8) : i = .nop := by
  revert h
  cases i <;> simp [Instr.opcode]

/-- With opcode 0x00 only word 0 is the word of a command. -/
theorem encode_ne_of_opcodeField {w : Word} (hop : opcodeField w = 0x00#8) (hw : w ≠ 0#32) (i : Instr) :
    encode i ≠ w := by
  rintro rfl
  have hcode : opcodeField (encode i) = i.opcode := by cases i <;> simp [encode]
  obtain rfl := eq_nop_of_opcode (hcode.symm.trans hop)
  exact hw (by decide)

/-- Settles O16: by the illegal word's completion (O5) and, from reset, by the acceptance of the word (O11). -/
theorem nopCompletes : Obligations.NopCompletes := by
  obtain ⟨hillegal, hzero⟩ := illegalWordEndsInOpcodeError
  have hnop : decode 0x00000000#32 = .instr .nop := (hzero _).2 rfl
  refine ⟨hnop, exec_nop, fun s hb hop hw => ?_, fun c contents => ?_⟩
  · exact hillegal s hb fun i _ => encode_ne_of_opcodeField hop hw i
  · obtain ⟨haccept, -⟩ := commandAcceptance (State.resetWith c contents) 5#11 0#32 rfl
    rw [haccept rfl, engineTurn_of_decode rfl hnop, exec_nop]
    refine ⟨_, rfl, BitVec.eq_of_toNat_eq ?_, BitVec.eq_of_toNat_eq ?_⟩
    · simp [statusWord_toNat, State.finished, State.resetWith]
    · simp [errinfoWord_toNat, State.finished]

/-! ### The frame of a command

The frame of an error and of waiting is the same for every command; a command's own frame is that of its writes. -/

/-- However a command ends, either its writes are committed or nothing but the report changes. -/
theorem exec_frame_cases {i : Instr} {s t : State} (h : exec i s = .next t) :
    (∃ w, commandResult i s = .ok w ∧ t = w.commit) ∨
      ∃ busy err code sub, t = { s with busy := busy, err := err, errCode := code, errSub := sub } := by
  rw [exec_eq_complete] at h
  obtain ⟨w, hr, rfl⟩ | ⟨code, sub, -, rfl⟩ | ⟨-, rfl⟩ := complete_next h
  · exact .inl ⟨w, hr, rfl⟩
  · exact .inr ⟨false, true, code.number, sub, rfl⟩
  · exact .inr ⟨t.busy, t.err, t.errCode, t.errSub, rfl⟩

/-- The frame of a command whose success writes one slice of `len` bytes at the start of a buffer. -/
theorem exec_frame_of_setBuf {i : Instr} {s t : State} {b : Buf} {len : Nat} (h : exec i s = .next t)
    (hok : ∀ w, commandResult i s = .ok w → ∃ bytes, bytes.length = len ∧ w = s.setBuf b bytes) :
    s.onlyMemAndReport t ∧ ∀ addr, addr < b.base ∨ b.base + len ≤ addr → t.mem.read addr = s.mem.read addr := by
  obtain ⟨w, hr, rfl⟩ | ⟨busy, err, code, sub, rfl⟩ := exec_frame_cases h
  · obtain ⟨bytes, rfl, rfl⟩ := hok w hr
    exact ⟨rfl, fun addr haddr => Memory.read_writeBytes_outside _ _ _ _ haddr⟩
  · exact ⟨rfl, fun _ _ => rfl⟩

/-! ### The result buffer and DIGEST -/

theorem commandResult_montmul_ok {sa sb : Selector} {s w : State} (h : commandResult (.montmul sa sb) s = .ok w) :
    ∃ v, w = s.setResult v := by
  simp only [commandResult] at h
  split at h
  · obtain ⟨-, -, -, rfl⟩ := montmul_ok h
    exact ⟨_, rfl⟩
  · cases h

theorem commandResult_modmul_ok {sa sb : Selector} {s w : State} (h : commandResult (.modmul sa sb) s = .ok w) :
    ∃ v, w = s.setResult v := by
  simp only [commandResult] at h
  split at h
  · obtain ⟨-, rfl⟩ := modmul_ok h
    exact ⟨_, rfl⟩
  · cases h

theorem commandResult_modexp_ok {sa : Selector} {s w : State} (h : commandResult (.modexp sa) s = .ok w) :
    ∃ v, w = s.setResult v := by
  simp only [commandResult] at h
  split at h
  · obtain ⟨-, rfl⟩ := modexp_ok h
    exact ⟨_, rfl⟩
  · cases h

theorem commandResult_hash_ok {sa : Selector} {s w : State} (h : commandResult (.hash sa) s = .ok w) :
    ∃ msg, w = s.setBuf .digest (sha256 msg) := by
  simp only [commandResult] at h
  split at h
  · obtain ⟨-, rfl⟩ := hash_ok h
    exact ⟨_, rfl⟩
  · cases h

/-- The frame of a command of the Montgomery unit that leaves a result (41_montgomery.md R139). -/
theorem exec_frame_of_setResult {i : Instr} {s t : State} (h : exec i s = .next t)
    (hok : ∀ w, commandResult i s = .ok w → ∃ v, w = s.setResult v) :
    s.onlyMemAndReport t ∧ ∀ addr, addr < 0x1400 ∨ 0x1400 + s.k ≤ addr → t.mem.read addr = s.mem.read addr := by
  refine exec_frame_of_setBuf (b := .rbuf) h fun w hr => ?_
  obtain ⟨v, rfl⟩ := hok w hr
  exact ⟨beBytes v s.k, beBytes_length v s.k, rfl⟩

/-- Settles O39: each of the four writes one slice of RBUF. -/
theorem resultBufferCommandsFrame : Obligations.ResultBufferCommandsFrame := by
  unfold Obligations.ResultBufferCommandsFrame
  intro i len s t hi h
  rcases hi with ⟨⟨sa, sb, rfl⟩, rfl⟩ | ⟨⟨sa, sb, rfl⟩, rfl⟩ | ⟨⟨sa, rfl⟩, rfl⟩ | ⟨imm, rfl, rfl⟩
  · exact exec_frame_of_setResult h fun w => commandResult_montmul_ok
  · exact exec_frame_of_setResult h fun w => commandResult_modmul_ok
  · exact exec_frame_of_setResult h fun w => commandResult_modexp_ok
  · refine exec_frame_of_setBuf (b := .rbuf) h fun w hr => ?_
    obtain ⟨-, -, rfl⟩ := mgf1_ok hr
    exact ⟨_, mgf1Mask_length s.message imm.toNat, rfl⟩

/-- Settles O40: HASH writes the 32 bytes of DIGEST. -/
theorem hashFrame : Obligations.HashFrame := by
  unfold Obligations.HashFrame
  intro sa s t h
  refine exec_frame_of_setBuf (b := .digest) (len := 32) h fun w hr => ?_
  obtain ⟨msg, rfl⟩ := commandResult_hash_ok hr
  exact ⟨sha256 msg, sha256_length msg, rfl⟩

/-! ### The OAEP unit -/

/-- What a successful OAEPENC writes: the block, and before it the drawn seed (43_oaep.md R182, R186). -/
theorem oaepenc_ok_slices {s w : State} (h : oaepenc s = .ok w) :
    ∃ em : List Byte, em.length = s.k ∧
      ((s.seedSelL = true ∧ w = s.setBuf .abuf em) ∨
        ∃ seed rest : List Byte, s.seedSelL = false ∧ seed.length = 32 ∧
          w = ({ s with entropy := rest }.setBuf .seed seed).setBuf .abuf em) := by
  obtain ⟨-, -, hmsg, seed, u, hseed, rfl⟩ := oaepenc_ok h
  have hlen := oaepSeed_length hseed
  refine ⟨_, oaepEncode_length s.message s.k s.label seed (by simpa [State.message] using hmsg) hlen, ?_⟩
  obtain ⟨hsel, -, rfl⟩ | ⟨hsel, -, -, rfl⟩ := oaepSeed_some hseed
  · exact .inl ⟨hsel, rfl⟩
  · exact .inr ⟨seed, s.entropy.drop 32, hsel, hlen, rfl⟩

/-- Settles O41: the frame of the block's store, after that of the seed's when it is drawn. -/
theorem oaepencFrame : Obligations.OaepencFrame := by
  unfold Obligations.OaepencFrame
  intro s t h
  obtain ⟨w, hr, rfl⟩ | ⟨busy, err, code, sub, rfl⟩ := exec_frame_cases h
  · obtain ⟨em, hem, ⟨hsel, rfl⟩ | ⟨seed, rest, hsel, hseed, rfl⟩⟩ := oaepenc_ok_slices hr
    · refine ⟨rfl, fun _ => rfl, fun addr habuf _ => ?_⟩
      exact Memory.read_writeBytes_outside _ _ _ _ (hem.symm ▸ habuf)
    · refine ⟨rfl, fun hhost => by simp [hsel] at hhost, fun addr habuf hdrawn => ?_⟩
      calc ((s.mem.writeBytes 0x0040 seed).writeBytes 0x0C00 em).read addr
        _ = (s.mem.writeBytes 0x0040 seed).read addr :=
          Memory.read_writeBytes_outside _ _ _ _ (hem.symm ▸ habuf)
        _ = s.mem.read addr := Memory.read_writeBytes_outside _ _ _ _ (hseed.symm ▸ hdrawn hsel)
  · exact ⟨rfl, fun _ => rfl, fun _ _ _ => rfl⟩

theorem operandBuf_of_mem {sa : Selector} {b : Buf} (h : (sa, b) ∈ operandSelectors) : operandBuf sa = some b := by
  simp only [operandSelectors, List.mem_cons, Prod.mk.injEq, List.not_mem_nil, or_false] at h
  rcases h with ⟨rfl, rfl⟩ | ⟨rfl, rfl⟩ | ⟨rfl, rfl⟩ <;> rfl

/-- Settles O42: a successful OAEPDEC writes the decoded message to MBUF. -/
theorem oaepdecFrame : Obligations.OaepdecFrame := by
  unfold Obligations.OaepdecFrame
  intro sa b s t hsa h
  obtain ⟨w, hr, rfl⟩ | ⟨busy, err, code, sub, rfl⟩ := exec_frame_cases h
  · have hdec : oaepdec b s = .ok w := by simpa only [commandResult, operandBuf_of_mem hsa] using hr
    obtain ⟨-, -, m, hm, rfl⟩ := oaepdec_ok hdec
    exact ⟨rfl, fun addr haddr => Memory.read_writeBytes_outside _ _ _ _ (haddr m hm)⟩
  · exact ⟨rfl, fun _ _ => rfl⟩

/-! ### NOP and MINIT -/

/-- Settles O43: neither command's writes hold a byte of memory. -/
theorem nonStoringCommandsFrame : Obligations.NonStoringCommandsFrame := by
  unfold Obligations.NonStoringCommandsFrame
  intro s t
  refine ⟨fun h => ?_, fun h => ?_⟩
  · cases h
    exact ⟨rfl, fun _ => rfl⟩
  · obtain ⟨w, hr, rfl⟩ | ⟨busy, err, code, sub, rfl⟩ := exec_frame_cases h
    · obtain ⟨-, -, -, -, -, rfl⟩ := minit_ok hr
      exact ⟨rfl, fun _ => rfl⟩
    · exact ⟨rfl, fun _ => rfl⟩

end Sys2Proof.Machine
end

section
/-! The Montgomery product and the two informative sequences over it (41_montgomery.md R131, R132, R135, R137): the
product is the only residue that times the radix is the plain product, and each sequence is shown to have that residue. -/

namespace Sys2Proof.Machine

/-! ### The product (41_montgomery.md R131) -/

section
variable {n k : Nat} (hodd : n % 2 = 1) (hn : 3 ≤ n)
include hodd hn

/-- To be the Montgomery product is to be reduced and to be, times the radix, the plain product. -/
theorem montMul_eq_of_radix_mul {a b v : Nat} (hv : v < n) (h : radix k * v % n = a * b % n) : montMul a b n k = v :=
  radix_cancel hodd (montMul_lt a b n k (by omega)) hv ((radix_mul_montMul a b n k hodd hn).trans h.symm)

theorem rInv_pos : 1 ≤ rInv n k := by
  refine Nat.pos_of_ne_zero fun h0 => ?_
  have h := radix_mul_rInv n k hodd hn
  simp [h0] at h

/-- A factor in Montgomery form cancels the inverse of the radix. -/
theorem montMul_mul_radix (a b : Nat) : montMul (a * radix k % n) b n k = a * b % n := by
  refine montMul_eq_of_radix_mul hodd hn (Nat.mod_lt _ (by omega)) ?_
  rw [Nat.mul_mod_mod, Nat.mod_mul_mod]
  congr 1
  ring

/-- The product with `RR` is the Montgomery form. -/
theorem montMul_radix_sq (a : Nat) : montMul a (radix k * radix k % n) n k = a * radix k % n := by
  refine montMul_eq_of_radix_mul hodd hn (Nat.mod_lt _ (by omega)) ?_
  rw [Nat.mul_mod_mod, Nat.mul_mod_mod]
  congr 1
  ring

/-- Montgomery forms multiply as the numbers do. -/
theorem montMul_of_forms (a b : Nat) :
    montMul (a * radix k % n) (b * radix k % n) n k = a * b * radix k % n := by
  rw [montMul_mul_radix hodd hn, Nat.mul_mod_mod, Nat.mul_assoc]

end

/-- Settles O23: `Rinv` is `rInv`, unique since the radix cancels. -/
theorem montgomeryProductLaws : Obligations.MontgomeryProductLaws := by
  intro n k hodd hn _
  have hinv := radix_mul_rInv n k hodd hn
  refine ⟨rInv n k, rInv_pos hodd hn, rInv_lt n k (by omega), hinv, fun r _ hr h => ?_, fun a b => ?_⟩
  · exact radix_cancel hodd hr (rInv_lt n k (by omega)) (h.trans hinv.symm)
  · exact ⟨rfl, montMul_lt a b n k (by omega), montMul_radix_sq hodd hn a, by rw [montMul, Nat.mul_one],
      montMul_mul_radix hodd hn a b⟩

/-! ### The word-serial algorithm (41_montgomery.md R132) -/

/-- The number that the accumulator `t[0..s]` of the algorithm stands for. -/
def accValue (t : List Nat × Nat) : Nat := digitsValue t.1 + 2 ^ (Config.wordBits * t.1.length) * t.2

theorem digitsValue_replicate_zero (s : Nat) : digitsValue (List.replicate s 0) = 0 := by
  induction s with
  | zero => rfl
  | succ s ih => simp [List.replicate_succ, digitsValue, ih]

theorem digitsValue_eq_headD_add (ds : List Nat) :
    digitsValue ds = ds.headD 0 + 2 ^ Config.wordBits * digitsValue ds.tail := by
  cases ds <;> simp [digitsValue]

/-- The inner loop leaves a proper digit in front, so that digit is the remainder of the row. -/
theorem mulAddRow_headD (y carry : Nat) (ts xs : List Nat) :
    (mulAddRow y carry ts xs).1.headD 0 = digitsValue (mulAddRow y carry ts xs).1 % 2 ^ Config.wordBits := by
  rw [digitsValue_eq_headD_add, Nat.add_mul_mod_self_left]
  match ts, xs with
  | [], _ => simp [mulAddRow]
  | _ :: _, [] => simp [mulAddRow]
  | t :: ts, x :: xs => simp [mulAddRow]

/-- Dropping a low digit 0 and splitting the top one divides by the base. -/
theorem accValue_shift {ds : List Nat} (hpos : 0 < ds.length) (h0 : ds.headD 0 = 0) (top high : Nat) :
    2 ^ Config.wordBits * accValue (ds.tail ++ [top % 2 ^ Config.wordBits], high + top / 2 ^ Config.wordBits) =
      digitsValue ds + 2 ^ (Config.wordBits * ds.length) * (top + 2 ^ Config.wordBits * high) := by
  cases ds with
  | nil => simp at hpos
  | cons d ds =>
    have htop := Nat.mod_add_div top (2 ^ Config.wordBits)
    obtain rfl : d = 0 := h0
    simp only [accValue, List.tail_cons, digitsValue_append, digitsValue, List.length_append, List.length_cons,
      List.length_nil, Nat.mul_add, Nat.mul_one, Nat.mul_zero, Nat.zero_add, Nat.add_zero, pow_add]
    linear_combination 2 ^ (Config.wordBits * ds.length) * 2 ^ Config.wordBits * htop

section
variable {as ns : List Nat} {n0 : Nat} (hn0 : (digitsValue ns * n0 + 1) % 2 ^ Config.wordBits = 0)
include hn0

/-- The multiple of `n` that the algorithm adds clears the low digit. -/
theorem reductionRow_headD {ts : List Nat} (hlen : ts.length = ns.length) (hpos : 0 < ns.length) :
    (mulAddRow (ts.headD 0 * n0 % 2 ^ Config.wordBits) 0 ts ns).1.headD 0 = 0 := by
  have hvalue := mulAddRow_value (ts.headD 0 * n0 % 2 ^ Config.wordBits) 0 ts ns hlen
  rw [mulAddRow_headD]
  generalize mulAddRow (ts.headD 0 * n0 % 2 ^ Config.wordBits) 0 ts ns = red at hvalue ⊢
  obtain ⟨j, hj⟩ := Nat.exists_eq_succ_of_ne_zero hpos.ne'
  calc digitsValue red.1 % 2 ^ Config.wordBits
    _ = (digitsValue red.1 + 2 ^ (Config.wordBits * ns.length) * red.2) % 2 ^ Config.wordBits := by
      rw [hj, Nat.mul_succ, pow_add, Nat.mul_right_comm, Nat.add_mul_mod_self_right]
    _ = (ts.headD 0 + digitsValue ns * (ts.headD 0 * n0)) % 2 ^ Config.wordBits := by
      rw [hvalue, digitsValue_eq_headD_add ts, Nat.add_zero, Nat.add_right_comm, Nat.add_mul_mod_self_left, Nat.add_mod,
        Nat.mul_mod_mod, ← Nat.add_mod]
    _ = ts.headD 0 * (digitsValue ns * n0 + 1) % 2 ^ Config.wordBits := by congr 1; ring
    _ = 0 := by rw [Nat.mul_mod, hn0, Nat.mul_zero, Nat.zero_mod]

variable {s : Nat} (has : as.length = s) (hns : ns.length = s) (hs : 0 < s)
include has hns hs

/-- One round of the outer loop adds `a·bi` and a multiple of `n` and drops the low digit, which is then zero: no carry
is lost. -/
theorem ciosStep_value (bi : Nat) {t : List Nat × Nat} (ht : t.1.length = s) :
    (ciosStep as ns n0 t bi).1.length = s ∧
      ∃ m < 2 ^ Config.wordBits, 2 ^ Config.wordBits * accValue (ciosStep as ns n0 t bi) =
        accValue t + digitsValue as * bi + digitsValue ns * m := by
  have hprodLen := (mulAddRow_length bi 0 t.1 as (ht.trans has.symm)).trans has
  have hprod := mulAddRow_value bi 0 t.1 as (ht.trans has.symm)
  simp only [ciosStep]
  generalize mulAddRow bi 0 t.1 as = prod at hprodLen hprod ⊢
  have hclear := reductionRow_headD hn0 (hprodLen.trans hns.symm) (hns.symm ▸ hs)
  have hredLen := (mulAddRow_length (prod.1.headD 0 * n0 % 2 ^ Config.wordBits) 0 prod.1 ns
    (hprodLen.trans hns.symm)).trans hns
  have hred := mulAddRow_value (prod.1.headD 0 * n0 % 2 ^ Config.wordBits) 0 prod.1 ns (hprodLen.trans hns.symm)
  generalize mulAddRow _ 0 prod.1 ns = red at hclear hredLen hred ⊢
  refine ⟨by simp [hredLen]; omega, prod.1.headD 0 * n0 % 2 ^ Config.wordBits, Nat.mod_lt _ (by positivity), ?_⟩
  have hhigh := Nat.mod_add_div (t.2 + prod.2) (2 ^ Config.wordBits)
  rw [accValue_shift (by omega) hclear, accValue, hredLen, ht]
  rw [has] at hprod
  rw [hns] at hred
  linear_combination hprod + hred + 2 ^ (Config.wordBits * s) * hhigh

/-- All rounds together: `a` times the digits gone through, and a multiple of `n` below their base power. -/
theorem ciosFold_value (bs : List Nat) {t : List Nat × Nat} (ht : t.1.length = s) :
    (bs.foldl (ciosStep as ns n0) t).1.length = s ∧
      ∃ m < 2 ^ (Config.wordBits * bs.length),
        2 ^ (Config.wordBits * bs.length) * accValue (bs.foldl (ciosStep as ns n0) t) =
          accValue t + digitsValue as * digitsValue bs + digitsValue ns * m := by
  induction bs generalizing t with
  | nil => exact ⟨ht, 0, by simp, by simp [digitsValue]⟩
  | cons bi bs ih =>
    obtain ⟨hlen, m, hm, hstep⟩ := ciosStep_value hn0 has hns hs bi ht
    obtain ⟨hlen', m', hm', hrest⟩ := ih hlen
    refine ⟨hlen', m + 2 ^ Config.wordBits * m', ?_, ?_⟩
    · rw [List.length_cons, Nat.mul_succ, pow_add]
      calc m + 2 ^ Config.wordBits * m'
        _ < 2 ^ Config.wordBits * (m' + 1) := by rw [Nat.mul_succ]; omega
        _ ≤ 2 ^ (Config.wordBits * bs.length) * 2 ^ Config.wordBits := by
          rw [Nat.mul_comm]; exact Nat.mul_le_mul_right _ hm'
    · simp only [List.foldl_cons, List.length_cons, digitsValue, Nat.mul_succ, pow_add]
      linear_combination hstep + 2 ^ Config.wordBits * hrest

end

theorem digitsValue_wordDigits_of_lt {v k : Nat} (h : v < radix k) : digitsValue (wordDigits v (wordCount k)) = v := by
  rw [digitsValue_wordDigits]
  exact Nat.mod_eq_of_lt h

theorem wordCount_pos {n k : Nat} (hn : 1 ≤ n) (h : n < 256 ^ k) : 0 < wordCount k := by
  cases k with
  | zero => rw [pow_zero] at h; omega
  | succ k => unfold wordCount; omega

/-- The accumulator after the outer loop: times the radix it is `a·b` and a multiple of `n` below `radix·n`. -/
theorem wordSerial_accumulator {a b n n0 k : Nat} (hn : 1 ≤ n) (hnk : n < 256 ^ k) (hn0 : (n * n0 + 1) % 2 ^ 32 = 0)
    (ha : a < radix k) (hb : b < radix k) :
    ∃ u, montMulWordSerial a b n n0 k = (if n ≤ u then u - n else u) ∧
      ∃ m < radix k, radix k * u = a * b + n * m := by
  have hnDigits := digitsValue_wordDigits_of_lt (hnk.trans_le (pow_le_radix k))
  obtain ⟨hlen, m, hm, hvalue⟩ := ciosFold_value (n0 := n0) (by rw [hnDigits]; exact hn0)
    (wordDigits_length a (wordCount k)) (wordDigits_length n (wordCount k)) (wordCount_pos hn hnk)
    (wordDigits b (wordCount k)) (t := (List.replicate (wordCount k) 0, 0)) List.length_replicate
  rw [wordDigits_length, hnDigits, digitsValue_wordDigits_of_lt ha, digitsValue_wordDigits_of_lt hb] at hvalue
  rw [wordDigits_length] at hm
  have hstart : accValue (List.replicate (wordCount k) 0, 0) = 0 := by simp [accValue, digitsValue_replicate_zero]
  rw [hstart, Nat.zero_add] at hvalue
  refine ⟨_, ?_, m, hm, hvalue⟩
  rw [accValue, hlen]
  rfl

/-- Settles O24: the accumulator is below `2·n`, so one subtraction reduces it. -/
theorem wordSerialMultiplierRefines : Obligations.WordSerialMultiplierRefines := by
  intro a b n n0 k hodd hn hnk hn0 ha hb hab
  obtain ⟨u, hresult, m, hm, hu⟩ := wordSerial_accumulator (by omega) hnk hn0 ha hb
  have hlt : u < 2 * n := by
    refine Nat.lt_of_mul_lt_mul_left (a := radix k) ?_
    calc radix k * u
      _ = a * b + n * m := hu
      _ < radix k * n + n * radix k := Nat.add_lt_add hab (Nat.mul_lt_mul_of_pos_left hm (by omega))
      _ = radix k * (2 * n) := by ring
  have hmod : radix k * u % n = a * b % n := by rw [hu, Nat.add_mul_mod_self_left]
  rw [hresult]
  symm
  split
  · next hge =>
    refine montMul_eq_of_radix_mul hodd hn (by omega) ?_
    rw [← hmod, ← Nat.add_mul_mod_self_right _ (radix k) n, ← Nat.mul_add, Nat.sub_add_cancel hge]
  · next hlt' => exact montMul_eq_of_radix_mul hodd hn (by omega) hmod

/-! ### The sequences of MODMUL and MODEXP (41_montgomery.md R135, R137) -/

theorem log2_of_two_le {e : Nat} (h : 2 ≤ e) : e.log2 = (e / 2).log2 + 1 := by
  rw [Nat.log2_def, if_pos h]

/-- The exponent's bits, most significant first, end with its lowest. -/
theorem exponentBits_of_pos {e : Nat} (h : 0 < e) : exponentBits e = exponentBits (e / 2) ++ [e.testBit 0] := by
  obtain rfl | h2 : e = 1 ∨ 2 ≤ e := by omega
  · decide
  · rw [exponentBits, exponentBits, if_neg (by omega), if_neg (by omega), ← log2_of_two_le h2, List.range_succ_eq_map,
      List.reverse_cons, List.map_append, ← List.map_reverse, List.map_map, log2_of_two_le h2]
    congr 2
    funext i
    exact Nat.testBit_succ e i

/-- What one bit of the exponent does to `x` in the sequence of 41_montgomery.md R137. -/
def modexpStep (abar n k x : Nat) (bit : Bool) : Nat :=
  if bit then montMul (montMul x x n k) abar n k else montMul x x n k

theorem modexpSequence_eq (a e n k rr : Nat) : modexpSequence a e n k rr =
    montMul ((exponentBits e).foldl (modexpStep (montMul a rr n k) n k) (montMul 1 rr n k)) 1 n k := rfl

section
variable {n k : Nat} (hodd : n % 2 = 1) (hn : 3 ≤ n)
include hodd hn

/-- The square, times the base if the bit is 1, in Montgomery form. -/
theorem modexpStep_form (a p : Nat) (bit : Bool) :
    modexpStep (a * radix k % n) n k (a ^ p * radix k % n) bit = a ^ (2 * p + bit.toNat) * radix k % n := by
  cases bit with
  | false => simp [modexpStep, montMul_of_forms hodd hn, two_mul, pow_add]
  | true => simp [modexpStep, montMul_of_forms hodd hn, two_mul, pow_add]

/-- The loop reaches the Montgomery form of `a^e`. -/
theorem modexpFold_form (a e : Nat) :
    (exponentBits e).foldl (modexpStep (a * radix k % n) n k) (1 * radix k % n) = a ^ e * radix k % n := by
  induction e using Nat.div2Induction with
  | ind e ih =>
    obtain rfl | hpos := Nat.eq_zero_or_pos e
    · rfl
    · rw [exponentBits_of_pos hpos, List.foldl_append, ih hpos, List.foldl_cons, List.foldl_nil,
        modexpStep_form hodd hn]
      congr 3
      rw [Nat.testBit_zero]
      by_cases h : e % 2 = 1 <;> simp [h] <;> omega

end

/-- Settles O25: both keep the Montgomery form, which the last product takes off. -/
theorem referenceSequencesRefine : Obligations.ReferenceSequencesRefine := by
  intro a b e n k hodd hn
  constructor
  · rw [modmulSequence, montMul_radix_sq hodd hn, montMul_mul_radix hodd hn]
  · rw [modexpSequence_eq, montMul_radix_sq hodd hn, montMul_radix_sq hodd hn, modexpFold_form hodd hn,
      montMul_mul_radix hodd hn, Nat.mul_one]

end Sys2Proof.Machine
end

section
/-! The commands of the Montgomery unit, each case of each (41_montgomery.md R133-R136, R139, 60_exceptions.md R226). -/

namespace Sys2Proof.Machine

/-! ### The ends of a completion step -/

theorem exec_of_ok {i : Instr} {s w : State} (h : commandResult i s = .ok w) : exec i s = .next w.finished := by
  rw [exec_eq_complete, h]
  rfl

theorem exec_of_err {i : Instr} {s : State} {code : ErrCode} {sub : BitVec 8} (h : commandResult i s = .err code sub) :
    exec i s = .next (s.failed code.number sub) := by
  rw [exec_eq_complete, h]
  rfl

/-! ### MINIT (41_montgomery.md R133) -/

/-- MINIT's test of the last byte is one of the modulus (00_scope.md R10). -/
theorem lastByte_even_iff {s : State} (hk : s.k ≠ 0) :
    (s.mem.read (Buf.nbuf.base + (s.k - 1))).getLsbD 0 = false ↔ s.modulus % 2 = 0 := by
  rw [modulus_mod_two hk, BitVec.getLsbD, Nat.testBit_zero, decide_eq_false_iff_not]
  omega

theorem minit_of_badLength {s : State} (h : s.k = 0 ∨ s.config.kmax < s.k) : minit s = .err .param 0#8 :=
  if_pos h

section
variable {s : State} (hk : 1 ≤ s.k) (hkmax : s.k ≤ s.config.kmax)
include hk hkmax

theorem minit_of_badModulus
    (h : s.mem.read Buf.nbuf.base = 0#8 ∨ s.modulus % 2 = 0 ∨ s.modulus < 3) : minit s = .err .modulus 0#8 := by
  rw [← lastByte_even_iff (by omega)] at h
  rw [minit, if_neg (by omega), if_pos h]

theorem minit_of_legal (hlead : s.mem.read Buf.nbuf.base ≠ 0#8) (hodd : s.modulus % 2 = 1) (hn : 3 ≤ s.modulus) :
    minit s = .ok { s with
      n0inv := BitVec.ofNat 32 (negInvWord s.modulus), rr := radixSquared s.modulus s.k, keyok := true } := by
  have hlast : ¬ (s.mem.read (Buf.nbuf.base + (s.k - 1))).getLsbD 0 = false := by
    rw [lastByte_even_iff (by omega)]
    omega
  rw [minit, if_neg (by omega), if_neg (by simp only [not_or]; exact ⟨hlead, hlast, by omega⟩)]

end

/-- Settles O17: N0INV is the word that `negInvWord` computes. -/
theorem minitComputesConstants : Obligations.MinitComputesConstants := by
  intro s hk hkmax hlead hodd hn
  refine ⟨BitVec.ofNat 32 (negInvWord s.modulus), ?_, exec_of_ok (i := .minit) (minit_of_legal hk hkmax hlead hodd hn)⟩
  rw [BitVec.toNat_ofNat, Nat.mod_eq_of_lt (negInvWord_lt _ hodd)]
  exact negInvWord_spec _ hodd

/-- Settles O18: the two refusals of MINIT, of the length before the modulus. -/
theorem minitRejectsModulus : Obligations.MinitRejectsModulus := fun _ =>
  ⟨fun h => exec_of_err (i := .minit) (minit_of_badLength h),
    fun hk hkmax h => exec_of_err (i := .minit) (minit_of_badModulus hk hkmax h)⟩

/-! ### The keyed commands (41_montgomery.md R134-R136) -/

section
variable {s : State} {sa sb : Selector} {a b : Buf} (ha : (sa, a) ∈ operandSelectors) (hb : (sb, b) ∈ operandSelectors)

section
include ha hb

theorem commandResult_montmul_eq : commandResult (.montmul sa sb) s = montmul a b s := by
  simp only [commandResult, operandBuf_of_mem ha, operandBuf_of_mem hb]

theorem commandResult_modmul_eq : commandResult (.modmul sa sb) s = modmul a b s := by
  simp only [commandResult, operandBuf_of_mem ha, operandBuf_of_mem hb]

end

include ha in
theorem commandResult_modexp_eq : commandResult (.modexp sa) s = modexp a s := by
  simp only [commandResult, operandBuf_of_mem ha]

end

section
variable {s : State} {a b : Buf}

theorem montmul_of_keyless (h : s.keyok = false) : montmul a b s = .err .nokey 0#8 := if_pos h

theorem modmul_of_keyless (h : s.keyok = false) : modmul a b s = .err .nokey 0#8 := if_pos h

theorem modexp_of_keyless (h : s.keyok = false) : modexp a s = .err .nokey 0#8 := if_pos h

variable (hkey : s.keyok = true)
include hkey

theorem montmul_of_outOfRange (h : s.modulus ≤ s.operand a ∨ s.modulus ≤ s.operand b) :
    montmul a b s = .err .range 0#8 := by
  rw [montmul, if_neg (by simp [hkey]), if_pos h]

theorem montmul_of_inRange (ha : s.operand a < s.modulus) (hb : s.operand b < s.modulus) :
    montmul a b s = .ok (s.setResult (montMul (s.operand a) (s.operand b) s.modulus s.k)) := by
  rw [montmul, if_neg (by simp [hkey]), if_neg (by omega)]

theorem modmul_of_keyok : modmul a b s = .ok (s.setResult (s.operand a * s.operand b % s.modulus)) := by
  rw [modmul, if_neg (by simp [hkey])]

theorem modexp_of_keyok : modexp a s = .ok (s.setResult (s.operand a ^ s.exponent % s.modulus)) := by
  rw [modexp, if_neg (by simp [hkey]), powMod_eq]

end

/-- Settles O19: times the radix the Montgomery product is the plain one. -/
theorem montmulResult : Obligations.MontmulResult := by
  intro s sa sb a b hsa hsb hkey hodd hn ha hb
  refine ⟨montMul (s.operand a) (s.operand b) s.modulus s.k, montMul_lt _ _ _ _ (by omega),
    radix_mul_montMul _ _ _ _ hodd hn, ?_⟩
  exact exec_of_ok ((commandResult_montmul_eq hsa hsb).trans (montmul_of_inRange hkey ha hb))

/-- Settles O21: the squarings the model runs compute the power. -/
theorem modexpResult : Obligations.ModexpResult := fun _ _ _ hsa hkey =>
  exec_of_ok ((commandResult_modexp_eq hsa).trans (modexp_of_keyok hkey))

/-- Settles O20: with a key MODMUL refuses no operand. -/
theorem modmulResult : Obligations.ModmulResult := fun _ _ _ _ _ hsa hsb hkey =>
  exec_of_ok ((commandResult_modmul_eq hsa hsb).trans (modmul_of_keyok hkey))

/-- Settles O22: the key is looked at before the operands, and these by MONTMUL alone. -/
theorem keyedCommandErrors : Obligations.KeyedCommandErrors := by
  intro s sa sb a b hsa hsb
  refine ⟨fun h => ⟨?_, ?_, ?_⟩, fun hkey h => ?_⟩
  · exact exec_of_err ((commandResult_montmul_eq hsa hsb).trans (montmul_of_keyless h))
  · exact exec_of_err ((commandResult_modmul_eq hsa hsb).trans (modmul_of_keyless h))
  · exact exec_of_err ((commandResult_modexp_eq hsa).trans (modexp_of_keyless h))
  · exact exec_of_err ((commandResult_montmul_eq hsa hsb).trans (montmul_of_outOfRange hkey h))

end Sys2Proof.Machine
end

section
/-! The hash unit: the bytes of a mask (42_hash_mgf1.md R166) and each case of HASH and MGF1 (R164, R167). -/

namespace Sys2Proof.Machine

/-! ### The mask (42_hash_mgf1.md R166) -/

theorem mgf1Blocks_getElem? (seed : List Byte) {count j : Nat} (hj : j < 32 * count) :
    (mgf1Blocks seed count)[j]? = (sha256 (seed ++ beBytes (j / 32) 4))[j % 32]? := by
  induction count with
  | zero => omega
  | succ count ih =>
    rw [mgf1Blocks_succ]
    by_cases hlast : j < 32 * count
    · rw [List.getElem?_append_left (by rwa [mgf1Blocks_length]), ih hlast]
    · have hdiv : j / 32 = count := by omega
      have hmod : j - 32 * count = j % 32 := by omega
      rw [List.getElem?_append_right (by rw [mgf1Blocks_length]; omega), mgf1Blocks_length, hdiv, hmod]

/-- Settles O29: block `j / 32` of the counter blocks holds byte `j`, and the cut to `len` bytes keeps it. -/
theorem maskIsHashOfCounterBlocks : Obligations.MaskIsHashOfCounterBlocks := by
  refine fun seed len => ⟨mgf1Mask_length seed len, fun j hj => ?_⟩
  rw [mgf1Mask, List.getElem?_take_of_lt hj]
  exact mgf1Blocks_getElem? seed (by simp only [Config.hLen]; omega)

/-! ### HASH and MGF1 (42_hash_mgf1.md R164, R167) -/

/-- The end of a command that stores a buffer, for any bytes: unifying the two states with a digest in place of
`bytes` would compute the digest. -/
theorem State.finished_setBuf (s : State) (b : Buf) (bytes : List Byte) : (s.setBuf b bytes).finished =
    { s with mem := s.mem.writeBytes b.base bytes, done := true, busy := false } := rfl

section
variable {s : State} {b : Buf}

theorem commandResult_hash_eq {sa : Selector} (h : hashBuf sa = some b) : commandResult (.hash sa) s = hash b s := by
  simp only [commandResult, h]

theorem hash_of_tooLong (h : s.bufSize b < s.lengthOf b) : hash b s = .err .param 0#8 := if_pos h

theorem hash_of_fits (h : s.lengthOf b ≤ s.bufSize b) :
    hash b s = .ok (s.setBuf .digest (sha256 (s.buf b (s.lengthOf b)))) :=
  if_neg h.not_gt

theorem exec_hash_of_fits {sa : Selector} (hsa : hashBuf sa = some b) (h : s.lengthOf b ≤ s.bufSize b) :
    exec (.hash sa) s = .next { s with
      mem := s.mem.writeBytes 0x0060 (sha256 (s.buf b (s.lengthOf b))), done := true, busy := false } := by
  rw [exec_of_ok ((commandResult_hash_eq hsa).trans (hash_of_fits h)), State.finished_setBuf, Buf.base_digest]

theorem mgf1_of_tooLong {len : Half} (h : s.config.kmax < s.mlen.toNat ∨ s.config.kmax < len.toNat) :
    mgf1 len s = .err .param 0#8 :=
  if_pos h

theorem mgf1_of_fits {len : Half} (hm : s.mlen.toNat ≤ s.config.kmax) (hl : len.toNat ≤ s.config.kmax) :
    mgf1 len s = .ok (s.setBuf .rbuf (mgf1Mask s.message len.toNat)) :=
  if_neg (not_or.mpr ⟨hm.not_gt, hl.not_gt⟩)

end

/-- Settles O26: selector 3 names MBUF with MLEN, selector 4 LBUF with LLEN. -/
theorem hashResult : Obligations.HashResult := fun s =>
  ⟨fun h => exec_hash_of_fits (s := s) (b := .mbuf) rfl h, fun h => exec_hash_of_fits (s := s) (b := .lbuf) rfl h⟩

/-- Settles O27: with both lengths inside their buffers MGF1 refuses nothing. -/
theorem maskCommandResult : Obligations.MaskCommandResult := fun _ len hm hl =>
  exec_of_ok (i := .mgf1 len) (mgf1_of_fits hm hl)

/-- Settles O28: HASH looks at the length of its own buffer alone, MGF1 at MLEN and at the mask's length. -/
theorem hashUnitRejectsLengths : Obligations.HashUnitRejectsLengths := fun _ len =>
  ⟨fun h => exec_of_err ((commandResult_hash_eq (b := .mbuf) rfl).trans (hash_of_tooLong h)),
    fun h => exec_of_err ((commandResult_hash_eq (b := .lbuf) rfl).trans (hash_of_tooLong h)),
    fun h => exec_of_err (i := .mgf1 len) (mgf1_of_tooLong h)⟩

end Sys2Proof.Machine
end

section
/-! The OAEP unit: the encoded block and the order of the decoder's checks (43_oaep.md R180-R187), and each case of
OAEPENC (R182, R186) and OAEPDEC (R184). -/

namespace Sys2Proof.Machine

/-! ### The encoded block (43_oaep.md R180, R181) -/

/-- Unmasking cuts a block behind its leading byte and its seed, and takes the masks off in turn (43_oaep.md R183). -/
theorem oaepUnmask_cons_append (y : Byte) {maskedSeed maskedDB : List Byte} {k : Nat} (hseed : maskedSeed.length = 32)
    (hdb : maskedDB.length = k - 33) : oaepUnmask (y :: (maskedSeed ++ maskedDB)) k =
      xorBytes maskedDB (mgf1Mask (xorBytes maskedSeed (mgf1Mask maskedDB 32)) (k - 33)) := by
  have hfront : slice (y :: (maskedSeed ++ maskedDB)) 1 (1 + Config.hLen) = maskedSeed := List.take_left' hseed
  have hback : slice (y :: (maskedSeed ++ maskedDB)) (1 + Config.hLen) k = maskedDB := by
    have hdrop : (y :: (maskedSeed ++ maskedDB)).drop 33 = maskedDB :=
      List.drop_left' (l₁ := y :: maskedSeed) (congrArg Nat.succ hseed)
    rw [slice, Config.hLen, hdrop, List.take_of_length_le hdb.le]
  rw [oaepUnmask, hfront, hback]
  rfl

/-- The data block as one string, its zeros counted from the block's `k - 66` (43_oaep.md R180). -/
theorem oaepDataBlock_eq (msg : List Byte) (k : Nat) (label : List Byte) :
    oaepDataBlock msg k label = sha256 label ++ (zeroBytes (k - msg.length - 66) ++ 0x01#8 :: msg) := by
  simp only [oaepDataBlock, Config.hLen, Nat.sub_sub, List.append_assoc, List.singleton_append]

theorem oaepEncode_eq_cons (msg : List Byte) (k : Nat) (label seed : List Byte) :
    ∃ rest, oaepEncode msg k label seed = 0x00#8 :: rest :=
  ⟨_, List.append_assoc ..⟩

section
variable {msg seed : List Byte} {k : Nat} (hmsg : msg.length + 66 ≤ k) (hseed : seed.length = 32)
include hmsg hseed

/-- Each mask comes off because it is made from what the block still holds: the seed's from the masked data block, the
data block's from the seed (43_oaep.md R181, R183). -/
theorem oaepUnmask_oaepEncode (label : List Byte) :
    oaepUnmask (oaepEncode msg k label seed) k = oaepDataBlock msg k label := by
  have hdb := oaepDataBlock_length msg k label hmsg
  rw [oaepEncode, List.append_assoc, List.singleton_append,
    oaepUnmask_cons_append 0#8 (by simp [hseed, Config.hLen]) (by simp [hdb, Config.hLen, Nat.sub_sub]),
    Config.hLen, xorBytes_xorBytes seed _ (by simp [hseed]), Nat.sub_sub,
    xorBytes_xorBytes _ _ (by simp [hdb])]

/-- The leading zero byte keeps the block's value below `256^(k-1)` (43_oaep.md R180). -/
theorem beInt_oaepEncode_lt (label : List Byte) : beInt (oaepEncode msg k label seed) < 256 ^ (k - 1) := by
  have hlen := oaepEncode_length msg k label seed hmsg hseed
  obtain ⟨rest, hrest⟩ := oaepEncode_eq_cons msg k label seed
  rw [hrest, List.length_cons] at hlen
  calc beInt (oaepEncode msg k label seed)
    _ = beInt rest := by rw [hrest, beInt_cons, BitVec.toNat_zero, Nat.zero_mul, Nat.zero_add]
    _ < 256 ^ rest.length := beInt_lt rest
    _ = 256 ^ (k - 1) := by rw [← hlen, Nat.add_sub_cancel]

end

/-- Settles O35: the masks come off, and the leading zero byte bounds the value. -/
theorem encodedBlockLayout : Obligations.EncodedBlockLayout := by
  intro msg label seed k hmsg hseed
  refine ⟨oaepEncode_length msg k label seed hmsg hseed, rfl, beInt_oaepEncode_lt hmsg hseed label, ?_⟩
  rw [oaepUnmask_oaepEncode hmsg hseed, oaepDataBlock_eq]
  simp only [List.append_assoc, List.singleton_append]

/-! ### The decoder's checks, in order (43_oaep.md R183, R185) -/

theorem separatorScan_zeros_separator (zeros : Nat) (msg : List Byte) :
    separatorScan (zeroBytes zeros ++ 0x01#8 :: msg) = .msg msg := by
  rw [separatorScan_zeros, separatorScan, if_pos rfl]

theorem separatorScan_zeros_other (zeros : Nat) {y : Byte} (rest : List Byte) (h0 : y ≠ 0x00#8) (h1 : y ≠ 0x01#8) :
    separatorScan (zeroBytes zeros ++ y :: rest) = .fail 3#8 := by
  rw [separatorScan_zeros, separatorScan, if_neg h1, if_pos h0]

theorem separatorScan_all_zeros (zeros : Nat) : separatorScan (zeroBytes zeros) = .fail 4#8 := by
  rw [← List.append_nil (zeroBytes zeros), separatorScan_zeros, separatorScan]

theorem checkLeading_msg (y : Byte) (msg : List Byte) :
    checkLeading y (.msg msg) = if y = 0x00#8 then .msg msg else .fail 5#8 :=
  ite_not ..

section
variable {em label : List Byte} {k : Nat}

theorem oaepDecode_of_short (hk : k < 66) : oaepDecode em k label = .fail 1#8 :=
  if_pos hk

theorem oaepDecode_of_labelHash_ne (hk : 66 ≤ k) (hhash : (oaepUnmask em k).take 32 ≠ sha256 label) :
    oaepDecode em k label = .fail 2#8 := by
  rw [oaepDecode, if_neg (show ¬ k < 2 * Config.hLen + 2 from hk.not_gt)]
  exact if_pos hhash

theorem oaepDecode_of_labelHash_eq (hk : 66 ≤ k) (hhash : (oaepUnmask em k).take 32 = sha256 label) :
    oaepDecode em k label = checkLeading (em.headD 0x00#8) (separatorScan ((oaepUnmask em k).drop 32)) := by
  rw [oaepDecode, if_neg (show ¬ k < 2 * Config.hLen + 2 from hk.not_gt)]
  exact if_neg (not_not_intro hhash)

end

/-- Settles O37: behind the length and the label hash, the scan's outcome decides, and the leading byte when the scan
finds a message. -/
theorem decoderReportsFirstFailingCheck : Obligations.DecoderReportsFirstFailingCheck := by
  intro em label k
  refine ⟨oaepDecode_of_short, oaepDecode_of_labelHash_ne, fun hk hhash => ?_⟩
  rw [oaepDecode_of_labelHash_eq hk hhash]
  refine ⟨fun zeros y rest hdb h0 h1 => ?_, fun zeros hdb => ?_, fun zeros msg hdb => ?_⟩
  · rw [hdb, separatorScan_zeros_other zeros rest h0 h1, checkLeading]
  · rw [hdb, separatorScan_all_zeros, checkLeading]
  · rw [hdb, separatorScan_zeros_separator, checkLeading_msg]

/-- Settles O36: the decoder sees the data block that was encoded, which starts with its label's hash. -/
theorem oaepRoundTrip : Obligations.OaepRoundTrip := by
  intro msg label label' seed k hmsg hseed
  have hdb := oaepUnmask_oaepEncode hmsg hseed label
  rw [oaepDataBlock_eq] at hdb
  have hhash : (oaepUnmask (oaepEncode msg k label seed) k).take 32 = sha256 label := by
    rw [hdb, List.take_left' (sha256_length label)]
  have hlead : (oaepEncode msg k label seed).headD 0x00#8 = 0x00#8 := rfl
  refine ⟨?_, fun hne => oaepDecode_of_labelHash_ne (by omega) (hhash.trans_ne hne.symm)⟩
  rw [oaepDecode_of_labelHash_eq (by omega) hhash, hdb, List.drop_left' (sha256_length label),
    separatorScan_zeros_separator, checkLeading_msg, if_pos hlead]

/-! ### OAEPENC (43_oaep.md R182, R186) -/

theorem oaepLengthsBad_true {s : State} : s.oaepLengthsBad = true ↔
    s.config.kmax < s.k ∨ s.config.lmax < s.llen.toNat := by
  simp [State.oaepLengthsBad]

theorem messageTooLong_true {s : State} : s.messageTooLong = true ↔ s.k < s.mlen.toNat + 66 :=
  decide_eq_true_iff

theorem oaepSeed_of_host {s : State} (h : s.seedSelL = true) : s.oaepSeed = some (s.buf .seed 32, s) :=
  if_pos h

theorem oaepSeed_of_drawn {s : State} {seed rest : List Byte} (h : s.seedSelL = false) (hseed : seed.length = 32)
    (hport : s.entropy = seed ++ rest) : s.oaepSeed = some (seed, { s with entropy := rest }.setBuf .seed seed) := by
  have hdraw : s.rngDraw 32 = some (seed, { s with entropy := rest }) := by
    rw [State.rngDraw, hport, if_pos (by simp [hseed]), List.take_left' hseed, List.drop_left' hseed]
  rw [State.oaepSeed, if_neg (by simp [h]), Config.hLen, hdraw]
  rfl

section
variable {s : State}

theorem oaepenc_of_badLengths (h : s.config.kmax < s.k ∨ s.config.lmax < s.llen.toNat) :
    oaepenc s = .err .param 0#8 :=
  if_pos (oaepLengthsBad_true.2 h)

variable (hk : s.k ≤ s.config.kmax) (hl : s.llen.toNat ≤ s.config.lmax)
include hk hl

theorem oaepenc_of_tooLong (h : s.k < s.mlen.toNat + 66) : oaepenc s = .err .msglen 0#8 := by
  rw [oaepenc, oaepLengthsBad_false.2 ⟨hk, hl⟩, messageTooLong_true.2 h]
  rfl

variable (hm : s.mlen.toNat + 66 ≤ s.k)
include hm

theorem oaepenc_of_seed {t : State} {seed : List Byte} (hseed : s.oaepSeed = some (seed, t)) :
    oaepenc s = .ok (t.setBuf .abuf (oaepEncode s.message s.k s.label seed)) := by
  rw [oaepenc, oaepLengthsBad_false.2 ⟨hk, hl⟩, messageTooLong_false.2 hm, hseed]
  rfl

theorem exec_oaepenc_of_seed {t : State} {seed : List Byte} (hseed : s.oaepSeed = some (seed, t)) :
    exec .oaepenc s = .next { t with
      mem := t.mem.writeBytes 0x0C00 (oaepEncode s.message s.k s.label seed), done := true, busy := false } := by
  rw [exec_of_ok (i := .oaepenc) (oaepenc_of_seed hk hl hm hseed), State.finished_setBuf, Buf.base_abuf]

end

/-- Settles O30: SEED itself is the seed. -/
theorem oaepencWithHostSeed : Obligations.OaepencWithHostSeed := fun _ hk hl hm hsel =>
  exec_oaepenc_of_seed hk hl hm (oaepSeed_of_host hsel)

/-- Settles O31: the 32 bytes are drawn into SEED, and message and label are read before that store. -/
theorem oaepencWithDrawnSeed : Obligations.OaepencWithDrawnSeed := fun _ _ _ hk hl hm hsel hseed hport =>
  exec_oaepenc_of_seed hk hl hm (oaepSeed_of_drawn hsel hseed hport)

/-- Settles O32: the lengths are checked before the message's, and this before a draw. -/
theorem oaepencRejectsAndWaits : Obligations.OaepencRejectsAndWaits := by
  intro s
  refine ⟨fun h => exec_of_err (i := .oaepenc) (oaepenc_of_badLengths h),
    fun hk hl h => exec_of_err (i := .oaepenc) (oaepenc_of_tooLong hk hl h), fun hk hl hm hsel hport => ?_⟩
  have hwait : commandResult .oaepenc s = .pending :=
    oaepenc_pending_iff.2 ⟨oaepLengthsBad_false.2 ⟨hk, hl⟩, messageTooLong_false.2 hm, hsel, hport⟩
  rw [exec_eq_complete, hwait, complete]

/-! ### OAEPDEC (43_oaep.md R184) -/

section
variable {s : State} {b : Buf}

theorem commandResult_oaepdec_eq {sa : Selector} (h : (sa, b) ∈ operandSelectors) :
    commandResult (.oaepdec sa) s = oaepdec b s := by
  simp only [commandResult, operandBuf_of_mem h]

theorem oaepdec_of_badLengths (h : s.config.kmax < s.k ∨ s.config.lmax < s.llen.toNat) :
    oaepdec b s = .err .param 0#8 :=
  if_pos (oaepLengthsBad_true.2 h)

variable (hk : s.k ≤ s.config.kmax) (hl : s.llen.toNat ≤ s.config.lmax)
include hk hl

theorem oaepdec_of_fail {sub : BitVec 8} (h : oaepDecode (s.buf b s.k) s.k s.label = .fail sub) :
    oaepdec b s = .err .decode sub := by
  rw [oaepdec, oaepLengthsBad_false.2 ⟨hk, hl⟩, h]
  rfl

theorem oaepdec_of_msg {m : List Byte} (h : oaepDecode (s.buf b s.k) s.k s.label = .msg m) :
    oaepdec b s = .ok { s.setBuf .mbuf m with mlen := BitVec.ofNat 16 m.length } := by
  rw [oaepdec, oaepLengthsBad_false.2 ⟨hk, hl⟩, h]
  rfl

end

/-- Settles O33: the decoder's message is what OAEPDEC stores. -/
theorem oaepdecResult : Obligations.OaepdecResult := fun _ _ _ _ hsa hk hl hmsg =>
  exec_of_ok ((commandResult_oaepdec_eq hsa).trans (oaepdec_of_msg hk hl hmsg))

/-- Settles O34: the lengths are checked before the block is decoded. -/
theorem oaepdecRejects : Obligations.OaepdecRejects := fun _ _ _ hsa =>
  ⟨fun h => exec_of_err ((commandResult_oaepdec_eq hsa).trans (oaepdec_of_badLengths h)),
    fun _ hk hl hfail => exec_of_err ((commandResult_oaepdec_eq hsa).trans (oaepdec_of_fail hk hl hfail))⟩

end Sys2Proof.Machine
end

section
/-! Exceptions (60_exceptions.md R220-R226): no step stops the block, a command that ends with ERR has changed its report
alone, and which reports each command has. -/

namespace Sys2Proof.Machine

/-! ### Every step answers a next state (60_exceptions.md R220, R224) -/

/-- Settles O10: a step is the turn of some agent. -/
theorem stepAlwaysContinues : Obligations.StepAlwaysContinues := fun s =>
  applyInput_total (nextTurn s).1 (nextTurn s).2

/-! ### Error entry (60_exceptions.md R224, R225) -/

/-- Settles O15: with DONE = 0 the interrupt output shows the ERR that error entry sets, if IE_ERR lets it. -/
theorem errorEntry : Obligations.ErrorEntry := fun s code sub =>
  ⟨rfl, fun hdone => by simp [State.irq, hdone]⟩

@[simp] theorem State.raiseError_withoutReport (s : State) (code : ErrCode) (sub : BitVec 8) :
    (s.raiseError code sub).withoutReport = s.withoutReport := rfl

/-- ERR rises by error entry only: a commit and waiting keep it. -/
theorem exec_raises {i : Instr} {s t : State} (herr : s.err = false) (h : exec i s = .next t) (ht : t.err = true) :
    ∃ code sub, commandResult i s = .err code sub ∧ t = s.raiseError code sub := by
  rw [exec_eq_complete] at h
  obtain ⟨w, hr, rfl⟩ | ⟨code, sub, hr, rfl⟩ | ⟨-, rfl⟩ := complete_next h
  · obtain ⟨hwerr, -, -⟩ := State.sameOutside_report (commandResult_ok hr)
    rw [State.commit_err, hwerr, herr] at ht
    cases ht
  · exact ⟨code, sub, hr, rfl⟩
  · rw [herr] at ht
    cases ht

/-- Settles O13: what sets ERR is error entry, for a command and for an illegal word. -/
theorem failedCommandChangesOnlyReport : Obligations.FailedCommandChangesOnlyReport := by
  intro s t herr h ht
  rw [completionStep] at h
  cases hd : decode s.cmdreg with
  | instr i =>
    rw [hd] at h
    obtain ⟨code, sub, -, rfl⟩ := exec_raises herr h ht
    exact State.raiseError_withoutReport s code sub
  | illegal why =>
    rw [hd] at h
    cases h
    exact State.raiseError_withoutReport s .opcode 0#8

/-! ### The reports of each command (60_exceptions.md R221, R222, R226)

A command is a chain of checks, each with its own report, and then its writes. -/

/-- If the result is an error, its code and sub-code are in the list. -/
def CmdResult.ReportsIn (r : CmdResult) (reports : List (BitVec 8 × BitVec 8)) : Prop :=
  ∀ code sub, r = .err code sub → (code.number, sub) ∈ reports

section
variable {reports : List (BitVec 8 × BitVec 8)}

theorem CmdResult.ReportsIn.ok (w : State) : (CmdResult.ok w).ReportsIn reports := nofun

theorem CmdResult.ReportsIn.pending : CmdResult.pending.ReportsIn reports := nofun

theorem CmdResult.ReportsIn.err {code : ErrCode} {sub : BitVec 8} (h : (code.number, sub) ∈ reports) :
    (CmdResult.err code sub).ReportsIn reports := by
  rintro _ _ ⟨⟩
  exact h

/-- A check reports its own error, or leaves the report to what follows it. -/
theorem CmdResult.ReportsIn.check {p : Prop} [Decidable p] {code : ErrCode} {sub : BitVec 8} {r : CmdResult}
    (h : (code.number, sub) ∈ reports) (hr : r.ReportsIn reports) :
    (if p then .err code sub else r : CmdResult).ReportsIn reports := by
  split
  · exact .err h
  · exact hr

end

theorem minit_reportsIn (s : State) : (minit s).ReportsIn (errorReports .minit) :=
  .check (.head _) (.check (.tail _ (.head _)) (.ok _))

theorem montmul_reportsIn (sa sb : Selector) (a b : Buf) (s : State) :
    (montmul a b s).ReportsIn (errorReports (.montmul sa sb)) :=
  .check (.head _) (.check (.tail _ (.head _)) (.ok _))

theorem modmul_reportsIn (sa sb : Selector) (a b : Buf) (s : State) :
    (modmul a b s).ReportsIn (errorReports (.modmul sa sb)) :=
  .check (.head _) (.ok _)

theorem modexp_reportsIn (sa : Selector) (a : Buf) (s : State) : (modexp a s).ReportsIn (errorReports (.modexp sa)) :=
  .check (.head _) (.ok _)

theorem hash_reportsIn (sa : Selector) (b : Buf) (s : State) : (hash b s).ReportsIn (errorReports (.hash sa)) :=
  .check (.head _) (.ok _)

theorem mgf1_reportsIn (len : Half) (s : State) : (mgf1 len s).ReportsIn (errorReports (.mgf1 len)) :=
  .check (.head _) (.ok _)

/-- OAEPENC reports no error any more once it asks for its seed. -/
theorem oaepenc_reportsIn (s : State) : (oaepenc s).ReportsIn (errorReports .oaepenc) := by
  refine .check (.head _) (.check (.tail _ (.head _)) ?_)
  cases s.oaepSeed with
  | none => exact .pending
  | some d => exact .ok _

/-- OAEPDEC reports the decoder's failures, with its sub-codes, as E_DECODE. -/
theorem oaepdec_reportsIn (sa : Selector) (b : Buf) (s : State) :
    (oaepdec b s).ReportsIn (errorReports (.oaepdec sa)) := by
  refine .check (.head _) ?_
  cases hdec : oaepDecode (s.buf b s.k) s.k s.label with
  | msg m => exact .ok _
  | fail sub =>
    refine .err (List.mem_cons_of_mem _ ?_)
    rcases oaepDecode_fail hdec with rfl | rfl | rfl | rfl | rfl <;> decide

/-- Every operand selector names a buffer (30_encoding.md R94). -/
theorem exists_mem_operandSelectors {x : Selector} (h : operandSelector x = true) : ∃ b, (x, b) ∈ operandSelectors := by
  have hx : x ∈ operandSelectors.map Prod.fst := by revert h; revert x; decide
  obtain ⟨⟨_, b⟩, hmem, rfl⟩ := List.mem_map.1 hx
  exact ⟨b, hmem⟩

/-- Every HASH selector names a buffer (30_encoding.md R94). -/
theorem exists_hashBuf {x : Selector} (h : hashSelector x = true) : ∃ b, hashBuf x = some b :=
  Option.ne_none_iff_exists'.1 fun hnone => Bool.false_ne_true ((hashBuf_none hnone).symm.trans h)

/-- A well-formed command's selectors name buffers, so it reports what its own checks report. -/
theorem commandResult_reportsIn {i : Instr} (hwf : i.WellFormed) (s : State) :
    (commandResult i s).ReportsIn (errorReports i) := by
  cases i with
  | nop => exact .ok s
  | minit => exact minit_reportsIn s
  | montmul sa sb =>
    obtain ⟨hsa, hsb⟩ := Bool.and_eq_true_iff.1 hwf
    obtain ⟨a, ha⟩ := exists_mem_operandSelectors hsa
    obtain ⟨b, hb⟩ := exists_mem_operandSelectors hsb
    rw [commandResult_montmul_eq ha hb]
    exact montmul_reportsIn sa sb a b s
  | modmul sa sb =>
    obtain ⟨hsa, hsb⟩ := Bool.and_eq_true_iff.1 hwf
    obtain ⟨a, ha⟩ := exists_mem_operandSelectors hsa
    obtain ⟨b, hb⟩ := exists_mem_operandSelectors hsb
    rw [commandResult_modmul_eq ha hb]
    exact modmul_reportsIn sa sb a b s
  | modexp sa =>
    obtain ⟨a, ha⟩ := exists_mem_operandSelectors hwf
    rw [commandResult_modexp_eq ha]
    exact modexp_reportsIn sa a s
  | hash sa =>
    obtain ⟨b, hb⟩ := exists_hashBuf hwf
    rw [commandResult_hash_eq hb]
    exact hash_reportsIn sa b s
  | mgf1 len => exact mgf1_reportsIn len s
  | oaepenc => exact oaepenc_reportsIn s
  | oaepdec sa =>
    obtain ⟨b, hb⟩ := exists_mem_operandSelectors hwf
    rw [commandResult_oaepdec_eq hb]
    exact oaepdec_reportsIn sa b s

/-- Settles O14: an ERR that was not there before is the report of one of the command's checks. -/
theorem errorReportsOfCommands : Obligations.ErrorReportsOfCommands := by
  intro i s t hwf herr h ht
  obtain ⟨code, sub, hr, rfl⟩ := exec_raises herr h ht
  exact commandResult_reportsIn hwf s code sub hr

end Sys2Proof.Machine
end
